-- ==== Sys2Proof/Config.lean ====
section
/-! DEFINITION. The implementation parameters of R6. All are fixed constants but `cyclesPerStep`, which the spec leaves OPEN. -/

namespace Sys2Proof.Config

/-- `NREGS` (R6): number of general registers. -/
abbrev nregs : Nat := 16

/-- `FLAG_REG` (R6): index of the register that receives the carry flag. -/
abbrev flagReg : BitVec 4 := 15#4

/-- `MEM_SIZE` (R6): number of memory cells. -/
abbrev memSize : Nat := 4096

/-- `ILEN` in bytes (R6, R51): every instruction is two bytes long. -/
abbrev ilenBytes : Nat := 2

/-- `STACK_DEPTH` (R6): number of stack cells. -/
abbrev stackDepth : Nat := 16

/-- `RESET_PC` (R6): program counter after reset, the entry point. -/
abbrev resetPc : BitVec 16 := 0x0000#16

/-- `CYCLES_PER_STEP` (R6, R118, decision D11): left OPEN by the spec. It has no value here, and nothing in the model
reads it (log entry 5). -/
opaque cyclesPerStep : Nat

end Sys2Proof.Config
end

