-- ==== Sys2Proof/Word.lean ====
section
/-! DEFINITION. The word types of the machine: every value is an unsigned number of a stated width (R7). -/

namespace Sys2Proof

/-- An 8-bit value: a register (R13) or a memory cell (R19). -/
abbrev Byte := BitVec 8

/-- A 16-bit value: an opcode (R51), a stack cell (R21), the program counter (R16), `fault_info` (R27). -/
abbrev Word := BitVec 16

/-- A 4-bit field: a nibble of the opcode (R52); as `X` or `Y` it is a register index, always 0 to 15 (R13). -/
abbrev Nibble := BitVec 4

/-- The 12-bit field `NNN`, an absolute byte address 0x000 to 0xFFF (R53). -/
abbrev Addr := BitVec 12

end Sys2Proof
end

