-- ==== Sys2Proof/Syntax.lean ====
section
/-! DEFINITION. The instructions: one constructor per row of spec/opcode_table.json (R2, R55). -/

namespace Sys2Proof

/-- The whole instruction set (R2). An operand has the width of its field, so a register index is in 0 to 15 and a
call target in 0x000 to 0xFFF by construction (R13, R53). -/
inductive Instr where
  /-- `HALT` (R74). -/
  | halt
  /-- `ADD_XY xX, xY` (R75): `x` is the destination and first source, `y` the second source. -/
  | addXy (x y : Nibble)
  /-- `CALL NNN` (R79). -/
  | call (nnn : Addr)
  /-- `RETURN` (R80). -/
  | ret
  deriving DecidableEq, Repr

end Sys2Proof
end

