-- ==== Sys2Proof/WellFormed.lean ====
section
/-! DEFINITION. Which instructions are well-formed. An `Instr` has its operands in range by its type (R13); the checks
that can fail are those on an instruction as a person writes it, with plain numbers for operands (R62). -/

namespace Sys2Proof

/-- An instruction as R62 writes it: register numbers and call targets are plain numbers. -/
inductive Source where
  | halt
  | addXy (i j : Nat)
  | call (target : Nat)
  | ret
  deriving DecidableEq, Repr

/-- R62: a register number is 0 to 15. -/
def regNumberOk (n : Nat) : Bool := decide (n < Config.nregs)

/-- R62: a call target is a number 0 to 0xFFF; it may be odd (R40). -/
def targetOk (n : Nat) : Bool := decide (n < Config.memSize)

/-- The operand ranges of R62. -/
def Source.wellFormed : Source → Bool
  | .halt => true
  | .addXy i j => regNumberOk i && regNumberOk j
  | .call target => targetOk target
  | .ret => true

/-- The instruction a well-formed source names; nothing for an ill-formed one. -/
def Source.toInstr (p : Source) : Option Instr :=
  if p.wellFormed then
    match p with
    | .halt => some .halt
    | .addXy i j => some (.addXy (BitVec.ofNat 4 i) (BitVec.ofNat 4 j))
    | .call target => some (.call (BitVec.ofNat 12 target))
    | .ret => some .ret
  else none

/-- The source that names an instruction: its operands as plain numbers. -/
def Instr.toSource : Instr → Source
  | .halt => .halt
  | .addXy x y => .addXy x.toNat y.toNat
  | .call nnn => .call nnn.toNat
  | .ret => .ret

/-- An instruction is well-formed when its operands are in the ranges of R62; by their types they always are (R13). -/
def Instr.wellFormed (i : Instr) : Bool := i.toSource.wellFormed

end Sys2Proof
end

