-- ==== Sys2Proof/Decode.lean ====
section
/-! DEFINITION. Decoding and encoding: the fields of a word (R52), the priority match of the four patterns (R55, R70),
decoding of bytes, and the encoder that inverts it (R62, R64). -/

namespace Sys2Proof

/-- The 16-bit opcode of two memory bytes, big-endian: the byte at the lower address is the high one (R39, R51). -/
def opcodeOf (high low : Byte) : Word := (high.setWidth 16 <<< 8) ||| low.setWidth 16

/-- Bits 15:8 of a word, the byte at the lower address (R64). -/
def highByte (op : Word) : Byte := op.extractLsb' 8 8

/-- Bits 7:0 of a word, the byte at the higher address (R64). -/
def lowByte (op : Word) : Byte := op.extractLsb' 0 8

/-- The six fields that `decode_unit` extracts from every word (R52). -/
structure Fields where
  c : Nibble
  x : Nibble
  y : Nibble
  d : Nibble
  nnn : Addr
  kk : Byte
  deriving DecidableEq, Repr

/-- `decode_unit` (R52, R69): pure bit extraction, for every word. `KK` is extracted and used by nothing (R61). -/
def fieldsOf (op : Word) : Fields where
  c := op.extractLsb' 12 4
  x := op.extractLsb' 8 4
  y := op.extractLsb' 4 4
  d := op.extractLsb' 0 4
  nnn := op.extractLsb' 0 12
  kk := op.extractLsb' 0 8

/-- The match of `instruction_dispatcher` (R56, R70): the patterns in priority order, the first match wins; no
instruction where none matches. -/
def selectArm (f : Fields) : Option Instr :=
  if f.c = 0x0#4 ∧ f.x = 0x0#4 ∧ f.y = 0x0#4 ∧ f.d = 0x0#4 then some .halt
  else if f.c = 0x8#4 ∧ f.d = 0x4#4 then some (.addXy f.x f.y)
  else if f.c = 0x2#4 then some (.call f.nnn)
  else if f.c = 0x0#4 ∧ f.x = 0x0#4 ∧ f.y = 0xE#4 ∧ f.d = 0xE#4 then some .ret
  else none

/-- The instruction a word stands for; `none` is an unimplemented opcode (R58, R85). -/
def decodeWord (op : Word) : Option Instr := selectArm (fieldsOf op)

/-- Why bytes decode to no instruction. -/
inductive DecodeError where
  /-- Fewer than the two bytes of an instruction (R51). DESIGN CHOICE (log entry 9), safe: the core never decodes so few,
  since a fetch gives both bytes or neither (R41). -/
  | truncated
  /-- The word matches no pattern (R58); it carries the raw opcode. -/
  | unimplementedOpcode (op : Word)
  deriving DecidableEq, Repr

/-- Decode the instruction at the head of a list of bytes, and give the bytes after it. Every instruction is two bytes
(R51, R60). -/
def decode : List Byte → Except DecodeError (Instr × List Byte)
  | high :: low :: rest =>
    match decodeWord (opcodeOf high low) with
    | some i => .ok (i, rest)
    | none => .error (.unimplementedOpcode (opcodeOf high low))
  | _ => .error .truncated

/-- A row of the opcode map (R55): a word is the row's instruction when `(op & mask) == match`. -/
structure OpcodeRow where
  mask : Word
  pattern : Word
  deriving DecidableEq, Repr

/-- Whether a word is an instruction of the row (R55). -/
def OpcodeRow.covers (r : OpcodeRow) (op : Word) : Bool := decide (op &&& r.mask = r.pattern)

/-- The complete opcode map (R55), in the priority order of R56. -/
def opcodeMap : List OpcodeRow :=
  [⟨0xFFFF#16, 0x0000#16⟩, ⟨0xF00F#16, 0x8004#16⟩, ⟨0xF000#16, 0x2000#16⟩, ⟨0xFFFF#16, 0x00EE#16⟩]

/-- The row of the opcode map that an instruction belongs to. -/
def Instr.row : Instr → OpcodeRow
  | .halt => ⟨0xFFFF#16, 0x0000#16⟩
  | .addXy _ _ => ⟨0xF00F#16, 0x8004#16⟩
  | .call _ => ⟨0xF000#16, 0x2000#16⟩
  | .ret => ⟨0xFFFF#16, 0x00EE#16⟩

/-- The word of an instruction (R62, R55). -/
def encode : Instr → Word
  | .halt => 0x0000#16
  | .addXy x y => 0x8000#16 ||| (x.setWidth 16 <<< 8) ||| (y.setWidth 16 <<< 4) ||| 0x0004#16
  | .call nnn => 0x2000#16 ||| nnn.setWidth 16
  | .ret => 0x00EE#16

/-- The two bytes of an instruction, in the order of rising addresses (R64). -/
def encodeBytes (i : Instr) : List Byte := [highByte (encode i), lowByte (encode i)]

/-- The word of an instruction written as R62 writes it; nothing for one that is ill-formed. -/
def Source.assemble (p : Source) : Option Word := p.toInstr.map encode

/-- The first 16 bits of an instruction whose bits are `w`, numbered as spec/opcode_table.json numbers them; bits from
`nbits` up are 0. -/
def tableOpcode (nbits w : Nat) : Word := BitVec.ofNat 16 (w % 2 ^ nbits)

/-- The same instruction as bytes in memory order. -/
def tableBytes (nbits w : Nat) : List Byte := [highByte (tableOpcode nbits w), lowByte (tableOpcode nbits w)]

/-- The instruction the decoder reads from an instruction whose bits are `w`. -/
def decodeTableWord (nbits w : Nat) : Option Instr :=
  match decode (tableBytes nbits w) with
  | .ok (i, _) => some i
  | .error _ => none

end Sys2Proof
end

