-- ==== Sys2Proof/Machine/State.lean ====
section
/-! DEFINITION. The state of the machine, all of it (R13 to R29), and its value at reset (R30, R104). -/

namespace Sys2Proof.Machine

/-- `run_state` (R25): a 2-bit register with four values. -/
inductive RunState where
  /-- After reset, being loaded. -/
  | idle
  /-- The run loop is executing. -/
  | running
  /-- A `HALT` was executed. -/
  | halted
  /-- A fault was raised. -/
  | faulted
  deriving DecidableEq, Repr

/-- The value of `run_state` as the 2-bit register holds it (R25). -/
def RunState.code : RunState → BitVec 2
  | .idle => 0
  | .running => 1
  | .halted => 2
  | .faulted => 3

/-- `fault_cause` (R26, R87): a 3-bit register with five legal values; 5 to 7 are no states of the machine
(decision D16). -/
inductive FaultCause where
  /-- `NONE`. -/
  | noFault
  /-- `STACK_OVERFLOW` (R88). -/
  | stackOverflow
  /-- `STACK_UNDERFLOW` (R89). -/
  | stackUnderflow
  /-- `UNIMPLEMENTED_OPCODE` (R90). -/
  | unimplementedOpcode
  /-- `FETCH_OUT_OF_BOUNDS` (R91). -/
  | fetchOutOfBounds
  deriving DecidableEq, Repr

/-- The value of `fault_cause` as the 3-bit register holds it (R26). -/
def FaultCause.code : FaultCause → BitVec 3
  | .noFault => 0
  | .stackOverflow => 1
  | .stackUnderflow => 2
  | .unimplementedOpcode => 3
  | .fetchOutOfBounds => 4

/-- The memory array (R19), as the list of the cells that are not 0, by rising address. -/
abbrev Memory := List Host.Cell

/-- What a cell that the list does not name holds: 0, the value reset gives every byte (R30). -/
abbrev Memory.unlisted : Byte := 0x00#8

/-- The canonical form from address `lo` on: addresses strictly rising, inside the 4096 cells, no entry equal to what an
unlisted cell holds. -/
def Memory.wfFrom (lo : Nat) : Memory → Bool
  | [] => true
  | (a, v) :: rest =>
    decide (lo ≤ a) && decide (a < Config.memSize) && decide (v ≠ Memory.unlisted) && Memory.wfFrom (a + 1) rest

/-- The canonical form of memory: equal memories are equal lists. -/
def Memory.wf (m : Memory) : Bool := Memory.wfFrom 0 m

/-- All the state there is (R28). -/
structure State where
  /-- `x[0]` to `x[15]` (R13); `x[15]` is the carry flag (R14). -/
  regs : Vector Byte 16
  /-- `memory[0x000]` to `memory[0xFFF]` (R19). -/
  mem : Memory
  /-- The program counter (R16). -/
  pc : Word
  /-- `stack[0]` to `stack[15]` (R21). -/
  stack : Vector Word 16
  /-- The stack pointer, the index of the next free cell: exactly the 17 legal values 0 to 16 (R22). -/
  sp : Fin 17
  /-- `run_state` (R25). -/
  runState : RunState
  /-- `fault_cause` (R26). -/
  faultCause : FaultCause
  /-- `fault_info` (R27). -/
  faultInfo : Word
  deriving DecidableEq, Repr

/-- The reset state (R30, R104): zero everywhere, `IDLE`, no fault. -/
def State.reset : State where
  regs := Vector.replicate 16 0x00#8
  mem := []
  pc := Config.resetPc
  stack := Vector.replicate 16 0x0000#16
  sp := 0
  runState := .idle
  faultCause := .noFault
  faultInfo := 0x0000#16

/-- Why an access ends without a state. No step of the core ends so: the four faults of R87 are next states. -/
inductive Fault where
  /-- An access to a byte address outside 0 to 4095, which the machine does not have (R37, R38). Raised by the host
  port only, never by a step of the core, which tests the bound first (R41). Safe: the access has no value. -/
  | noSuchAddress (addr : Nat)
  deriving DecidableEq, Repr

/-- Why the model gives an instruction or a host access no meaning. -/
inductive Refusal where
  /-- The instruction has no meaning in the model yet. Raised by no arm of `exec`: every instruction is modelled. Safe. -/
  | notModelled (mnemonic : String)
  /-- The host reads state while the core runs (R109: no access; U12: refuse). Raised by the host port only, never by a
  step of the core. Safe: nothing is claimed of such a read. -/
  | hostHasNoAccess
  deriving DecidableEq, Repr

end Sys2Proof.Machine
end

