-- ==== Sys2Proof/Machine/Ops.lean ====
section
/-! DEFINITION. The named operations over memory, registers, program counter, stack and status registers, with the fetch
and with fault entry (R93). There is no return from a fault beside it: only reset leaves `FAULTED` (R96). -/

namespace Sys2Proof.Machine

/-! Memory (R37, R38) -/

/-- The byte a memory holds at an address, 0 for a cell it does not list. -/
def Memory.get : Memory → Nat → Byte
  | [], _ => Memory.unlisted
  | (b, w) :: rest, a => if a = b then w else Memory.get rest a

/-- A memory with one byte changed, in canonical form. -/
def Memory.set : Memory → Nat → Byte → Memory
  | [], a, v => if v = Memory.unlisted then [] else [(a, v)]
  | (b, w) :: rest, a, v =>
    if a < b then
      if v = Memory.unlisted then (b, w) :: rest else (a, v) :: (b, w) :: rest
    else if a = b then
      if v = Memory.unlisted then rest else (a, v) :: rest
    else (b, w) :: Memory.set rest a v

/-- `MemRead(addr, 1)` (R37): the byte at an address 0 to 4095; no value outside. -/
def Memory.read (m : Memory) (a : Nat) : Option Byte :=
  if a < Config.memSize then some (m.get a) else none

/-- `MemWrite(addr, 1, v)` (R38): sets the byte at an address 0 to 4095; no result outside. -/
def Memory.write (m : Memory) (a : Nat) (v : Byte) : Option Memory :=
  if a < Config.memSize then some (m.set a v) else none

/-! Registers (`register_file`, R13) -/

/-- Read `x[i]`. -/
def State.readReg (s : State) (i : Nibble) : Byte := s.regs[i.toNat]'i.isLt

/-- Write `x[i] <- v`. No register is hardwired (R13). -/
def State.writeReg (s : State) (i : Nibble) (v : Byte) : State :=
  { s with regs := s.regs.set i.toNat v i.isLt }

/-! Program counter (`pc_controller`, R31, R32) -/

/-- The signal `pc_op` with the value it loads (R32). -/
inductive PcOp where
  /-- `pc <- pc + 2` (R68). -/
  | advance
  /-- `pc <- zext_16(NNN)` (R53, R79). -/
  | loadNnn (nnn : Addr)
  /-- `pc <- v`, all 16 bits of the popped cell (R80). -/
  | loadPop (v : Word)
  deriving DecidableEq, Repr

/-- The new value of `pc`. -/
def nextPc (pc : Word) : PcOp → Word
  | .advance => pc + 2#16
  | .loadNnn nnn => nnn.setWidth 16
  | .loadPop v => v

/-- Apply a `pc_op` to the program counter. -/
def State.movePc (s : State) (op : PcOp) : State := { s with pc := nextPc s.pc op }

/-! Stack (`stack_memory`, R23, R50) -/

/-- Read `stack[i]`. -/
def State.cell (s : State) (i : Fin 16) : Word := s.stack[i.val]'i.isLt

/-- The signal `full` (R32): `sp >= 16`. -/
def State.stackFull (s : State) : Bool := decide (s.sp.val ≥ Config.stackDepth)

/-- The signal `empty` (R32): `sp == 0`. -/
def State.stackEmpty (s : State) : Bool := decide (s.sp.val = 0)

theorem lt_of_not_stackFull {s : State} (h : ¬ s.stackFull = true) : s.sp.val < 16 := by
  simpa [State.stackFull, Config.stackDepth] using h

theorem pred_lt_of_not_stackEmpty {s : State} (h : ¬ s.stackEmpty = true) : s.sp.val - 1 < 16 := by
  have := s.sp.isLt
  have : s.sp.val ≠ 0 := fun e => h (decide_eq_true e)
  omega

/-- Push (R23): refused when `sp >= 16`; otherwise `stack[sp] <- v`, then `sp <- sp + 1`. -/
def State.push (s : State) (v : Word) : Option State :=
  if h : s.stackFull = true then none
  else
    some { s with
      stack := s.stack.set s.sp.val v (lt_of_not_stackFull h)
      sp := ⟨s.sp.val + 1, Nat.succ_lt_succ (lt_of_not_stackFull h)⟩ }

/-- Pop (R23): refused when `sp == 0`; otherwise `sp <- sp - 1`, and the value is `stack[sp]` with the new `sp`. The
cell keeps its value. -/
def State.pop (s : State) : Option (Word × State) :=
  if h : s.stackEmpty = true then none
  else
    some (s.cell ⟨s.sp.val - 1, pred_lt_of_not_stackEmpty h⟩,
      { s with sp := ⟨s.sp.val - 1, Nat.lt_succ_of_lt (pred_lt_of_not_stackEmpty h)⟩ })

/-! Ending the run (`instruction_dispatcher`, R71) -/

/-- `halt` (R8): `run_state <- HALTED`. -/
def State.haltRun (s : State) : State := { s with runState := .halted }

/-- `raise <Fault>(info)` (R8, R93), the one fault entry of the machine: the status registers are written and nothing
else changes. Nothing is saved and `pc` goes nowhere. -/
def State.raiseFault (s : State) (cause : FaultCause) (info : Word) : State :=
  { s with runState := .faulted, faultCause := cause, faultInfo := info }

/-! Fetch (`fetch_unit`, R67) -/

/-- The signal `fetch_fault` (R32, R41): `pc + 1 > 4095` computed exactly, that is `pc >= 4095`. -/
def fetchFault (pc : Word) : Bool := decide (pc.toNat + 1 > Config.memSize - 1)

/-- The opcode at `pc`, or nothing where the fetch is out of bounds (R41, R67). The bound is tested before any byte is
read; parity is not tested (R40). -/
def State.fetch (s : State) : Option Word :=
  if fetchFault s.pc then none
  else
    match s.mem.read s.pc.toNat, s.mem.read (s.pc.toNat + 1) with
    | some high, some low => some (opcodeOf high low)
    | _, _ => none

/-- The core steps only while `run_state = RUNNING` (R25, R66). -/
def State.isRunning (s : State) : Bool := decide (s.runState = .running)

/-- Where a word is placed to be fetched next: at `pc`; at the entry point where nothing can be fetched at `pc`
(log entry 2). -/
def State.placeAt (s : State) : Word := if fetchFault s.pc then Config.resetPc else s.pc

/-- `s` with a word in memory where the next step fetches, and running (log entry 2). -/
def State.withOpcode (s : State) (op : Word) : State :=
  { s with
    mem := (s.mem.set s.placeAt.toNat (highByte op)).set (s.placeAt.toNat + 1) (lowByte op)
    pc := s.placeAt
    runState := .running }

end Sys2Proof.Machine
end

