-- ==== Sys2Proof/Machine/Flags.lean ====
section
/-! DEFINITION. The adder `alu_with_carry` (R76) and the one flag, the carry in `x[15]` (R14, R77). -/

namespace Sys2Proof.Machine

/-- The sum output (R76): `(a + b) mod 256`, computed exactly and then narrowed. -/
def aluSum (a b : Byte) : Byte := BitVec.ofNat 8 ((a.toNat + b.toNat) % 256)

/-- The carry output (R76): 1 when `a + b >= 256`. There is no carry input. -/
def aluCarry (a b : Byte) : BitVec 1 := if a.toNat + b.toNat ≥ 256 then 1#1 else 0#1

/-- The flag write (R77): `x[15] <- zext_8(carry)`; all eight bits of `x[15]` are replaced. -/
def State.writeFlag (s : State) (carry : BitVec 1) : State := s.writeReg Config.flagReg (carry.setWidth 8)

end Sys2Proof.Machine
end

