-- ==== Sys2Proof/Machine/Operands.lean ====
section
/-! DEFINITION. The operand forms (R53, R54): format `XY` names two registers, format `A` an absolute address, format `Z`
nothing. There are no addressing modes (R36). -/

namespace Sys2Proof.Machine

/-- The two source operands of format `XY`: `a = x[X]` and `b = x[Y]`, both read before any write (R33, R75). -/
def operandsXy (s : State) (x y : Nibble) : Byte × Byte := (s.readReg x, s.readReg y)

/-- The address operand of format `A`: `NNN` as it stands, unsigned and unscaled (R53). -/
def operandAddr (nnn : Addr) : PcOp := .loadNnn nnn

end Sys2Proof.Machine
end

