-- ==== Sys2Proof/Machine/Arith.lean ====
section
/-! DEFINITION. The arithmetic family: `ADD_XY` (R75). -/

namespace Sys2Proof.Machine

/-- `ADD_XY xX, xY` (R75): both sources are read, the sum is written to `x[X]`, then the carry to `x[15]`; the flag write
is last and wins when `X = 15` (R33). -/
def execAddXy (x y : Nibble) (s : State) : Host.Outcome State Fault Refusal :=
  match operandsXy s x y with
  | (a, b) => .next ((s.writeReg x (aluSum a b)).writeFlag (aluCarry a b))

end Sys2Proof.Machine
end

