-- ==== Sys2Proof/Machine/Control.lean ====
section
/-! DEFINITION. The control-transfer family: `CALL` (R79) and `RETURN` (R80). Both see `pc` already advanced (R68). -/

namespace Sys2Proof.Machine

/-- `CALL NNN` (R79): push `pc`, the return address, and continue at `NNN`; `STACK_OVERFLOW` with the raw opcode when
the push is refused. -/
def execCall (nnn : Addr) (s : State) : Host.Outcome State Fault Refusal :=
  match s.push s.pc with
  | some t => .next (t.movePc (operandAddr nnn))
  | none => .next (s.raiseFault .stackOverflow (encode (.call nnn)))

/-- `RETURN` (R80): pop the return address into `pc`; `STACK_UNDERFLOW` with the raw opcode when the pop is refused. -/
def execRet (s : State) : Host.Outcome State Fault Refusal :=
  match s.pop with
  | some (v, t) => .next (t.movePc (.loadPop v))
  | none => .next (s.raiseFault .stackUnderflow (encode .ret))

end Sys2Proof.Machine
end

