-- ==== Sys2Proof/Machine/System.lean ====
section
/-! DEFINITION. The system family: `HALT` (R74), the machine's only system instruction (R120). -/

namespace Sys2Proof.Machine

/-- `HALT` (R74): `run_state <- HALTED`. `pc` is already the advanced value and stays. -/
def execHalt (s : State) : Host.Outcome State Fault Refusal := .next s.haltRun

end Sys2Proof.Machine
end

