-- ==== Sys2Proof/Machine/Dispatch.lean ====
section
/-! DEFINITION. The dispatch: one arm per instruction (R70). The arms see `pc` already advanced (R68). -/

namespace Sys2Proof.Machine

def exec (i : Instr) (s : State) : Host.Outcome State Fault Refusal :=
  match i with
  | .halt => Sys2Proof.Machine.execHalt s
  | .addXy x y => Sys2Proof.Machine.execAddXy x y s
  | .call nnn => Sys2Proof.Machine.execCall nnn s
  | .ret => Sys2Proof.Machine.execRet s

end Sys2Proof.Machine
end

