-- ==== Sys2Proof/Machine/Unimplemented.lean ====
section
/-! DEFINITION. The last arm of the dispatch: a word that is no instruction (R85). -/

namespace Sys2Proof.Machine

/-- Unimplemented opcode (R85): `UNIMPLEMENTED_OPCODE` with the word as fetched; `pc` stays advanced. -/
def execUnimplemented (op : Word) (s : State) : Host.Outcome State Fault Refusal :=
  .next (s.raiseFault .unimplementedOpcode op)

/-- A fetch past the end of memory (R41, R91): `FETCH_OUT_OF_BOUNDS` with the `pc` of the fetch, which is not advanced. -/
def fetchPastEnd (s : State) : Host.Outcome State Fault Refusal :=
  .next (s.raiseFault .fetchOutOfBounds s.pc)

end Sys2Proof.Machine
end

