-- ==== Sys2Proof/Machine/Step.lean ====
section
/-! DEFINITION. One step of the core (R65): fetch, advance, decode, dispatch and execute; and the placing of a word where
the next step fetches it. -/

namespace Sys2Proof.Machine

/-- Advance, decode, dispatch and execute a fetched word (R68 to R70). -/
def runOpcode (op : Word) (s : State) : Host.Outcome State Fault Refusal :=
  match decodeWord op with
  | some i => exec i (s.movePc .advance)
  | none => execUnimplemented op (s.movePc .advance)

/-- One step (R65). Outside `RUNNING` the core does nothing: no fetch, no state change (R66, log entry 1). -/
def step (s : State) : Host.Outcome State Fault Refusal :=
  if s.isRunning then
    match s.fetch with
    | some op => runOpcode op s
    | none => fetchPastEnd s
  else .next s

/-- `s` with the instruction whose bits are `w` stored where `step` fetches its next instruction, and running
(log entry 2). -/
def State.withFetchWord (s : State) (nbits w : Nat) : State := s.withOpcode (tableOpcode nbits w)

end Sys2Proof.Machine
end

