-- ==== Sys2Proof/Machine/HostPort.lean ====
section
/-! DEFINITION. What the host may do to the machine (R105, R107 to R110): reset, load, run, inspect. These are moves of
the host and no part of a step of the core. -/

namespace Sys2Proof.Machine

/-- A command of the host that can change the state. There is none that writes `pc`, `sp`, the stack or a status
register (R107). -/
inductive HostCommand where
  /-- Assert the reset input (R105). -/
  | reset
  /-- `MemWrite(addr, 1, v)` (R107). -/
  | writeMem (addr : Nat) (v : Byte)
  /-- `x[i] <- v` (R107). -/
  | writeReg (i : Nibble) (v : Byte)
  /-- The `run` command (R108). -/
  | run
  deriving DecidableEq, Repr

/-- What the host asks to see (R110). -/
inductive HostProbe where
  | reg (i : Nibble)
  | mem (addr : Nat)
  | stackCell (i : Fin 16)
  | pc
  | sp
  | runState
  | faultCause
  | faultInfo
  deriving DecidableEq, Repr

/-- The reset input (R104, R105): from any state to the reset state. -/
def hostReset (_ : State) : Host.Outcome State Fault Refusal := .next State.reset

/-- A host write of a memory byte (R107): done in `IDLE`, ignored in any other state. -/
def hostWriteMem (addr : Nat) (v : Byte) (s : State) : Host.Outcome State Fault Refusal :=
  if s.runState = .idle then
    match s.mem.write addr v with
    | some m => .next { s with mem := m }
    | none => .fault (.noSuchAddress addr)
  else .next s

/-- A host write of a register (R107): done in `IDLE`, ignored in any other state. -/
def hostWriteReg (i : Nibble) (v : Byte) (s : State) : Host.Outcome State Fault Refusal :=
  if s.runState = .idle then .next (s.writeReg i v) else .next s

/-- The `run` command (R108): `run_state <- RUNNING` from `IDLE`, ignored in any other state. -/
def hostRun (s : State) : Host.Outcome State Fault Refusal :=
  if s.runState = .idle then .next { s with runState := .running } else .next s

/-- One move of the host. -/
def hostMove (c : HostCommand) (s : State) : Host.Outcome State Fault Refusal :=
  match c with
  | .reset => hostReset s
  | .writeMem addr v => hostWriteMem addr v s
  | .writeReg i v => hostWriteReg i v s
  | .run => hostRun s

/-- The value a probe finds, zero-extended to 16 bits. -/
def probeValue (p : HostProbe) (s : State) : Host.Outcome Word Fault Refusal :=
  match p with
  | .reg i => .next ((s.readReg i).setWidth 16)
  | .mem addr =>
    match s.mem.read addr with
    | some v => .next (v.setWidth 16)
    | none => .fault (.noSuchAddress addr)
  | .stackCell i => .next (s.cell i)
  | .pc => .next s.pc
  | .sp => .next (BitVec.ofNat 16 s.sp.val)
  | .runState => .next (s.runState.code.setWidth 16)
  | .faultCause => .next (s.faultCause.code.setWidth 16)
  | .faultInfo => .next s.faultInfo

/-- A read by the host (R109, R110): everything while the core does not run, `run_state` alone while it runs. A read
changes nothing, so it answers a value and no state. -/
def hostRead (p : HostProbe) (s : State) : Host.Outcome Word Fault Refusal :=
  if s.runState = .running ∧ p ≠ .runState then .refused .hostHasNoAccess else probeValue p s

end Sys2Proof.Machine
end

