-- ==== Sys2Proof/Safety.lean ====
section
/-! DEFINITION. What counts as a safe run, the states a run can reach, and the invariant of the machine. -/

namespace Sys2Proof.Machine

/-- A state has gone wrong when the core has faulted (R94, R95: a fault is an error of the program). -/
def State.goneWrong (s : State) : Prop := s.runState = .faulted

/-- The big-endian word in memory at an address (R39), cells outside memory counted as 0. -/
def State.wordAt (s : State) (a : Nat) : Word := opcodeOf (s.mem.get a) (s.mem.get (a + 1))

/-- A value that a `CALL` can push: an advanced `pc`, from 2 to 4096 (R24). -/
def isReturnAddress (v : Word) : Prop := 2 ≤ v.toNat ∧ v.toNat ≤ Config.memSize

/-- R24: the cells below `sp` hold return addresses; the others hold 0 from reset or an old return address. -/
def State.StackOk (s : State) : Prop :=
  ∀ i : Fin 16, isReturnAddress (s.cell i) ∨ (s.sp.val ≤ i.val ∧ s.cell i = 0#16)

/-- R26, R27: a cause is recorded exactly in `FAULTED`, and the information word is 0 without one. -/
def State.StatusOk (s : State) : Prop :=
  (s.faultCause = .noFault ↔ s.runState ≠ .faulted) ∧ (s.faultCause = .noFault → s.faultInfo = 0#16)

/-- R107: before the run, `pc`, `sp` and the stack are as reset leaves them. -/
def State.IdleOk (s : State) : Prop :=
  s.runState = .idle → s.pc = Config.resetPc ∧ s.sp = 0 ∧ ∀ i : Fin 16, s.cell i = 0#16

/-- R73, R74: a halted core stands two past a `HALT` word. -/
def State.HaltedOk (s : State) : Prop :=
  s.runState = .halted → 2 ≤ s.pc.toNat ∧ s.wordAt (s.pc.toNat - 2) = 0x0000#16

/-- R87, R94: what each recorded cause says of the state: the faulting word stands at `pc - 2` for the causes of the
execute stage, and the fault record names it. -/
def State.FaultRecordOk (s : State) : Prop :=
  match s.faultCause with
  | .noFault => True
  | .stackOverflow =>
    s.sp.val = 16 ∧ (∃ nnn, s.faultInfo = encode (.call nnn)) ∧ 2 ≤ s.pc.toNat ∧
      s.wordAt (s.pc.toNat - 2) = s.faultInfo
  | .stackUnderflow =>
    s.sp.val = 0 ∧ s.faultInfo = 0x00EE#16 ∧ 2 ≤ s.pc.toNat ∧ s.wordAt (s.pc.toNat - 2) = s.faultInfo
  | .unimplementedOpcode =>
    decodeWord s.faultInfo = none ∧ 2 ≤ s.pc.toNat ∧ s.wordAt (s.pc.toNat - 2) = s.faultInfo
  | .fetchOutOfBounds => s.faultInfo = s.pc ∧ fetchFault s.pc = true

/-- The invariant of the machine. It rules out the states that no run reaches. -/
structure State.Inv (s : State) : Prop where
  memory : s.mem.wf = true
  pcRange : s.pc.toNat ≤ Config.memSize
  stack : s.StackOk
  status : s.StatusOk
  idle : s.IdleOk
  halted : s.HaltedOk
  faultRecord : s.FaultRecordOk

/-- The states that the machine can be in: the reset state, and what a move of the host or a step of the core makes of
one (R105 to R108). -/
inductive Reachable : State → Prop where
  | reset : Reachable State.reset
  | host {s t : State} (c : HostCommand) (h : Reachable s) (e : hostMove c s = .next t) : Reachable t
  | core {s t : State} (h : Reachable s) (e : step s = .next t) : Reachable t

end Sys2Proof.Machine
end

