-- ==== Sys2Proof/Certificates/Slice0/Obligations.lean ====
section
/-! DEFINITION. The statements for the provers, made from the numbered rules of the spec. -/

open Sys2Proof Sys2Proof.Machine

/-! ## Reset and the host -/

/-- R104, R30. Every piece of state right after reset, and that the reset input makes it of any state; a machine run with
nothing loaded halts on its first step with `pc = 2`. -/
def Obligations.ResetLeavesEveryPieceAtItsValue : Prop :=
  (∀ i, State.reset.readReg i = 0x00#8) ∧
  (∀ a, a < 4096 → State.reset.mem.read a = some 0x00#8) ∧
  State.reset.pc = 0x0000#16 ∧
  (∀ j, State.reset.cell j = 0x0000#16) ∧
  State.reset.sp.val = 0 ∧
  State.reset.runState = .idle ∧ RunState.idle.code = 0 ∧
  State.reset.faultCause = .noFault ∧ FaultCause.noFault.code = 0 ∧
  State.reset.faultInfo = 0x0000#16 ∧
  (∀ s, hostMove .reset s = .next State.reset) ∧
  ∃ r, hostMove .run State.reset = .next r ∧
    step r = .next { State.reset with pc := 0x0002#16, runState := .halted }

/-- R105. Reset has its effect in every state; it is the only way out of `HALTED` and `FAULTED`, and the only way to stop
a running core from outside. -/
def Obligations.ResetIsTheOnlyWayOut : Prop :=
  (∀ s, hostMove .reset s = .next State.reset) ∧
  (∀ s, s.runState = .halted ∨ s.runState = .faulted →
    (∀ t, step s = .next t → t = s) ∧ ∀ c, c ≠ .reset → hostMove c s = .next s) ∧
  (∀ s c, s.runState = .running → c ≠ .reset → hostMove c s = .next s)

/-- R107. In `IDLE` the host writes any memory byte and any register; in any other state its writes are ignored; it can
write nothing else, so a run starts with `pc = 0`, `sp = 0` and a zero stack. The write of memory is stated of memories
in canonical form; that every reachable memory is in it is part of `State.Inv`. -/
def Obligations.HostLoadsMemoryAndRegistersInIdle : Prop :=
  (∀ s a v, s.runState = .idle → s.mem.wf = true → a < 4096 →
    ∃ m, hostMove (.writeMem a v) s = .next { s with mem := m } ∧ m.read a = some v ∧
      ∀ b, b ≠ a → m.read b = s.mem.read b) ∧
  (∀ s i v, s.runState = .idle →
    ∃ t, hostMove (.writeReg i v) s = .next t ∧ t = { s with regs := t.regs } ∧ t.readReg i = v ∧
      ∀ j, j ≠ i → t.readReg j = s.readReg j) ∧
  (∀ s a i v, s.runState ≠ .idle →
    hostMove (.writeMem a v) s = .next s ∧ hostMove (.writeReg i v) s = .next s) ∧
  (∀ s t c, c ≠ .reset → hostMove c s = .next t →
    t.pc = s.pc ∧ t.sp = s.sp ∧ t.stack = s.stack ∧ t.faultCause = s.faultCause ∧ t.faultInfo = s.faultInfo ∧
      (c ≠ .run → t.runState = s.runState)) ∧
  (∀ s t, Reachable s → s.runState = .idle → hostMove .run s = .next t →
    t.pc = 0x0000#16 ∧ t.sp.val = 0 ∧ ∀ j, t.cell j = 0x0000#16)

/-- R108. The `run` command sets `RUNNING` from `IDLE` and changes nothing else, and the core then steps until `HALTED` or
`FAULTED`; in any other state the command is ignored. -/
def Obligations.RunCommandStartsTheCoreFromIdle : Prop :=
  (∀ s, s.runState = .idle → hostMove .run s = .next { s with runState := .running }) ∧
  (∀ s t, s.runState = .running → step s = .next t →
    t.runState = .running ∨ t.runState = .halted ∨ t.runState = .faulted) ∧
  (∀ s, s.runState ≠ .idle → hostMove .run s = .next s)

/-- R109. While the core runs no read of the host gives a value but the one of `run_state`, and no command but reset changes
the state. -/
def Obligations.HostHasNoAccessWhileRunning : Prop :=
  ∀ s, s.runState = .running →
    (∀ c, c ≠ .reset → hostMove c s = .next s) ∧
    (∀ p, p ≠ .runState → ∀ v, hostRead p s ≠ .next v) ∧
    hostRead .runState s = .next (RunState.running.code.setWidth 16) ∧
    hostMove .reset s = .next State.reset

/-- R110. While the core does not run the host reads every piece of state. A read answers a value and no state, so it has
no side effect. -/
def Obligations.HostInspectsAStoppedCore : Prop :=
  ∀ s, s.runState ≠ .running →
    (∀ i, hostRead (.reg i) s = .next ((s.readReg i).setWidth 16)) ∧
    (∀ a v, s.mem.read a = some v → hostRead (.mem a) s = .next (v.setWidth 16)) ∧
    (∀ j, hostRead (.stackCell j) s = .next (s.cell j)) ∧
    hostRead .pc s = .next s.pc ∧
    hostRead .sp s = .next (BitVec.ofNat 16 s.sp.val) ∧
    hostRead .runState s = .next (s.runState.code.setWidth 16) ∧
    hostRead .faultCause s = .next (s.faultCause.code.setWidth 16) ∧
    hostRead .faultInfo s = .next s.faultInfo

/-! ## Encoding -/

/-- Bytes written out from the spec's encodings (R55, R58, R64; tables V1, V2 and E8 of 95_test_vectors.md) decode to what
they stand for. The last clause is no row of a table: that the decoder refuses one byte alone, by the name `truncated`, is
the model's choice (log entry 9). A sanity statement. -/
def Obligations.SampleWordsDecode : Prop :=
  decode [0x80#8, 0x14#8] = .ok (.addXy 0 1, []) ∧
  decode [0x8A#8, 0xB4#8] = .ok (.addXy 10 11, []) ∧
  decode [0x21#8, 0x00#8] = .ok (.call 0x100, []) ∧
  decode [0x20#8, 0xEE#8] = .ok (.call 0x0EE, []) ∧
  decode [0x00#8, 0x00#8] = .ok (.halt, []) ∧
  decode [0x00#8, 0xEE#8] = .ok (.ret, []) ∧
  decode [0x14#8, 0x80#8] = .error (.unimplementedOpcode 0x1480#16) ∧
  decode [0x01#8, 0xEE#8] = .error (.unimplementedOpcode 0x01EE#16) ∧
  decode [0x80#8] = .error .truncated

/-- R52. The six fields of every word, by the formulas of the rule, and how they stand in the two bytes in memory. -/
def Obligations.FieldsOfEveryWord : Prop :=
  (∀ op : Word,
    (fieldsOf op).c = ((op >>> 12) &&& 0xF#16).setWidth 4 ∧
    (fieldsOf op).x = ((op >>> 8) &&& 0xF#16).setWidth 4 ∧
    (fieldsOf op).y = ((op >>> 4) &&& 0xF#16).setWidth 4 ∧
    (fieldsOf op).d = (op &&& 0xF#16).setWidth 4 ∧
    (fieldsOf op).nnn = (op &&& 0xFFF#16).setWidth 12 ∧
    (fieldsOf op).kk = (op &&& 0xFF#16).setWidth 8 ∧
    (fieldsOf op).nnn =
      ((fieldsOf op).x.setWidth 12 <<< 8) ||| ((fieldsOf op).y.setWidth 12 <<< 4) ||| (fieldsOf op).d.setWidth 12 ∧
    (fieldsOf op).kk = ((fieldsOf op).y.setWidth 8 <<< 4) ||| (fieldsOf op).d.setWidth 8) ∧
  (∀ (s : State) (op : Word), s.fetch = some op →
    s.mem.read s.pc.toNat = some (((fieldsOf op).c.setWidth 8 <<< 4) ||| (fieldsOf op).x.setWidth 8) ∧
    s.mem.read (s.pc.toNat + 1) = some (((fieldsOf op).y.setWidth 8 <<< 4) ||| (fieldsOf op).d.setWidth 8))

/-- R55. Each row of the opcode map, of every word: the word is the row's instruction exactly when it has the row's
pattern under the row's mask, with the operands at the row's places; 4354 words in all are instructions. -/
def Obligations.OpcodeMapDecidesEveryWord : Prop :=
  (List.range 65536).countP (fun n => (decodeWord (BitVec.ofNat 16 n)).isSome) = 4354 ∧
  ∀ op : Word,
    (decodeWord op = some .halt ↔ op &&& 0xFFFF#16 = 0x0000#16) ∧
    (∀ x y, decodeWord op = some (.addXy x y) ↔
      op &&& 0xF00F#16 = 0x8004#16 ∧ x = op.extractLsb' 8 4 ∧ y = op.extractLsb' 4 4) ∧
    (∀ nnn, decodeWord op = some (.call nnn) ↔ op &&& 0xF000#16 = 0x2000#16 ∧ nnn = op.extractLsb' 0 12) ∧
    (decodeWord op = some .ret ↔ op &&& 0xFFFF#16 = 0x00EE#16) ∧
    (decodeWord op = none ↔
      op &&& 0xFFFF#16 ≠ 0x0000#16 ∧ op &&& 0xF00F#16 ≠ 0x8004#16 ∧
        op &&& 0xF000#16 ≠ 0x2000#16 ∧ op &&& 0xFFFF#16 ≠ 0x00EE#16)

/-- R64: encoding is the inverse of decoding. For every instruction, with every operand at every value, the two bytes the
encoder writes decode to that instruction, and the bytes after them are left over. -/
def Obligations.DecodeOfEncodedInstruction : Prop :=
  ∀ (i : Instr) (rest : List Byte), i.wellFormed = true → decode (encodeBytes i ++ rest) = .ok (i, rest)

/-- The other direction of R64: a word that decodes is the encoding of what it decodes to, so no two words stand for one
instruction. -/
def Obligations.EncodeOfDecodedWord : Prop :=
  ∀ (op : Word) (i : Instr), decodeWord op = some i → encode i = op

/-- The spec's inference in R57: no word matches two rows of the opcode map, and a word is an instruction exactly when it
matches one. -/
def Obligations.PatternsAreDisjoint : Prop :=
  ∀ op : Word,
    (opcodeMap.filter (fun r => r.covers op)).length ≤ 1 ∧
    ((decodeWord op).isSome = true ↔ (opcodeMap.filter (fun r => r.covers op)).length = 1)

/-- R62, the operand ranges and the encodings of the spec's syntax: a source in range assembles to a word that decodes to
the instruction with those operands; a source out of range assembles to nothing. -/
def Obligations.SourceAssemblesExactlyInRange : Prop :=
  (∀ p : Source, p.wellFormed = true →
    ∃ w i, p.assemble = some w ∧ decodeWord w = some i ∧ i.toSource = p) ∧
  (∀ i j : Nat, (16 ≤ i ∨ 16 ≤ j) → (Source.addXy i j).assemble = none) ∧
  (∀ target : Nat, 4096 ≤ target → (Source.call target).assemble = none)

/-! ## The instruction cycle -/

/-- R67, R39. The fetch gives the big-endian word at `pc` whenever `pc <= 4094`, and nothing otherwise. It answers a word
and no state, so it changes nothing. -/
def Obligations.FetchReadsTheBigEndianWord : Prop :=
  ∀ s : State,
    (s.pc.toNat ≤ 4094 → ∃ high low,
      s.mem.read s.pc.toNat = some high ∧ s.mem.read (s.pc.toNat + 1) = some low ∧
        s.fetch = some ((high.setWidth 16 <<< 8) ||| low.setWidth 16)) ∧
    (4095 ≤ s.pc.toNat → s.fetch = none) ∧
    (4095 ≤ s.pc.toNat → s.runState = .running →
      step s = .next { s with runState := .faulted, faultCause := .fetchOutOfBounds, faultInfo := s.pc })

/-- R41. The fetch is out of bounds exactly when `pc >= 4095`; the step then raises `FETCH_OUT_OF_BOUNDS`, reads no byte
(whatever memory holds, the outcome is the same) and does not advance `pc`. -/
def Obligations.FetchOutOfBoundsExactlyFrom4095 : Prop :=
  ∀ s : State, s.runState = .running → s.faultCause = .noFault →
    (4095 ≤ s.pc.toNat →
      ∀ m : Memory, step { s with mem := m } =
        .next { s with mem := m, runState := .faulted, faultCause := .fetchOutOfBounds, faultInfo := s.pc }) ∧
    (∀ t, step s = .next t → (t.faultCause = .fetchOutOfBounds ↔ 4095 ≤ s.pc.toNat))

/-- R40. A fetch at an odd `pc` is performed like any other; and from an even `pc` with even return addresses an odd `pc`
can arise only from a `CALL` whose `NNN` is odd. -/
def Obligations.OddProgramCounterIsFetchedAndComesFromAnOddCall : Prop :=
  (∀ s : State, s.pc.toNat % 2 = 1 → s.pc.toNat ≤ 4094 → s.fetch = some (s.wordAt s.pc.toNat)) ∧
  (∀ s t : State, s.pc.toNat % 2 = 0 → (∀ j : Fin 16, j.val < s.sp.val → (s.cell j).toNat % 2 = 0) →
    step s = .next t →
    (∃ op nnn, s.fetch = some op ∧ decodeWord op = some (.call nnn) ∧ nnn.toNat % 2 = 1) ∨
    (t.pc.toNat % 2 = 0 ∧ ∀ j : Fin 16, j.val < t.sp.val → (t.cell j).toNat % 2 = 0))

/-- A step runs the decoded instruction: when the bytes at `pc` decode to a well-formed instruction, the step of a running
core is `exec` of it in the state with `pc` advanced by 2, and the advance does not wrap. -/
def Obligations.StepRunsTheDecodedInstruction : Prop :=
  ∀ (s : State) (high low : Byte) (i : Instr), s.runState = .running →
    s.mem.read s.pc.toNat = some high → s.mem.read (s.pc.toNat + 1) = some low →
    decode [high, low] = .ok (i, []) → i.wellFormed = true →
    step s = exec i { s with pc := s.pc + 2#16 } ∧ (s.pc + 2#16).toNat = s.pc.toNat + 2

/-- R66. Outside `RUNNING` a step of the core changes no state, whatever stands in memory; `RUNNING` is entered only by the
host's `run` command from `IDLE`. -/
def Obligations.CoreStepsOnlyWhileRunning : Prop :=
  (∀ s t : State, s.runState ≠ .running → step s = .next t → t = s) ∧
  (∀ s t : State, step s = .next t → t.runState = .running → s.runState = .running) ∧
  (∀ (s t : State) (c : HostCommand), hostMove c s = .next t → t.runState = .running → s.runState ≠ .running →
    c = .run ∧ s.runState = .idle)

/-- Every step of every state answers a next state: no step ends in a fault or a refusal of the model. For a running core it
is the spec's inference in R72 that the step is total; outside `RUNNING` it is the model's choice (log entry 1). -/
def Obligations.EveryStepAnswersANextState : Prop :=
  ∀ s : State, ∃ t, step s = .next t

/-- R17. What `pc` holds after each step of a running core. -/
def Obligations.ProgramCounterAfterEachStep : Prop :=
  ∀ s t : State, s.runState = .running → step s = .next t →
    (s.fetch = none → t.pc = s.pc) ∧
    (∀ op, s.fetch = some op →
      (decodeWord op = some .halt → t.pc = s.pc + 2#16) ∧
      (∀ x y, decodeWord op = some (.addXy x y) → t.pc = s.pc + 2#16) ∧
      (∀ nnn, decodeWord op = some (.call nnn) → s.sp.val < 16 → t.pc = nnn.setWidth 16) ∧
      (∀ nnn, decodeWord op = some (.call nnn) → s.sp.val = 16 → t.pc = s.pc + 2#16) ∧
      (∀ j : Fin 16, decodeWord op = some .ret → s.sp.val = j.val + 1 → t.pc = s.cell j) ∧
      (decodeWord op = some .ret → s.sp.val = 0 → t.pc = s.pc + 2#16) ∧
      (decodeWord op = none → t.pc = s.pc + 2#16) ∧
      (∀ i, decodeWord op = some i → step s = exec i { s with pc := s.pc + 2#16 }))

/-- R71. How a step of a running core leaves the run: `HALTED` after `HALT`, `FAULTED` after a fault, `RUNNING` otherwise. -/
def Obligations.RunStateAfterEachStep : Prop :=
  ∀ s t : State, s.runState = .running → step s = .next t →
    (t.runState = .halted ↔ s.fetch = some 0x0000#16) ∧
    (t.goneWrong ↔
      s.fetch = none ∨
      ∃ op, s.fetch = some op ∧
        (decodeWord op = none ∨ ((∃ nnn, decodeWord op = some (.call nnn)) ∧ s.sp.val = 16) ∨
          (decodeWord op = some .ret ∧ s.sp.val = 0))) ∧
    (t.runState ≠ .halted → ¬ t.goneWrong → t.runState = .running)

/-- R25. The four values of `run_state` and every way it changes: reset sets `IDLE`, the host's `run` sets `RUNNING` from
`IDLE` only, `HALT` sets `HALTED` and a fault sets `FAULTED`, both from `RUNNING` only. -/
def Obligations.RunStateTransitions : Prop :=
  RunState.idle.code = 0 ∧ RunState.running.code = 1 ∧ RunState.halted.code = 2 ∧ RunState.faulted.code = 3 ∧
  (∀ s t : State, step s = .next t →
    (s.runState ≠ .running → t = s) ∧
    (s.runState = .running →
      (t.runState = .halted ∧ s.fetch = some 0x0000#16) ∨
      (t.runState = .faulted ∧ t.faultCause ≠ .noFault) ∨
      (t.runState = .running ∧ s.fetch ≠ some 0x0000#16))) ∧
  (∀ (s t : State) (c : HostCommand), hostMove c s = .next t →
    (c = .reset → t.runState = .idle) ∧
    (c = .run → s.runState = .idle → t.runState = .running) ∧
    (c ≠ .reset → (c ≠ .run ∨ s.runState ≠ .idle) → t.runState = s.runState))

/-! ## The instructions -/

/-- R74. `HALT`: the word, the effect on every state, the step, that nothing happens after it, and that it is the only way
into `HALTED`: a step that reaches `HALTED` ran the exact word, and no move of the host reaches it. -/
def Obligations.HaltStopsTheRun : Prop :=
  (∀ op : Word, decodeWord op = some .halt ↔ op = 0x0000#16) ∧
  (∀ s : State, exec .halt s = .next { s with runState := .halted }) ∧
  (∀ s : State, s.runState = .running → s.fetch = some 0x0000#16 →
    step s = .next { s with pc := s.pc + 2#16, runState := .halted }) ∧
  (∀ s t : State, s.runState ≠ .halted → step s = .next t → t.runState = .halted →
    s.runState = .running ∧ s.fetch = some 0x0000#16) ∧
  (∀ (s t : State) (c : HostCommand), s.runState ≠ .halted → hostMove c s = .next t → t.runState ≠ .halted) ∧
  (∀ s : State, s.runState = .halted →
    (∀ t, step s = .next t → t = s) ∧ ∀ c, c ≠ .reset → hostMove c s = .next s) ∧
  (∀ s : State, s.runState = .halted → ∀ p, hostRead p s = probeValue p s) ∧
  (∀ s : State, s.Inv → s.runState = .halted → s.faultCause = .noFault ∧ s.faultInfo = 0#16)

/-- R75. `ADD_XY`: the words, the step, and the result for every pair of operands, 15 and equal ones included. The
sources are read before the sum is written to `x[X]`; the carry is written to `x[15]` last. -/
def Obligations.AddXyAddsAndWritesTheCarry : Prop :=
  (∀ (op : Word) (x y : Nibble), decodeWord op = some (.addXy x y) ↔
    highByte op = (0x80#8 ||| x.setWidth 8) ∧ lowByte op = ((y.setWidth 8 <<< 4) ||| 0x04#8)) ∧
  (∀ (s : State) (op : Word) (x y : Nibble), s.runState = .running → s.fetch = some op →
    decodeWord op = some (.addXy x y) → step s = exec (.addXy x y) { s with pc := s.pc + 2#16 }) ∧
  (∀ (x y : Nibble) (s : State), ∃ t, exec (.addXy x y) s = .next t ∧
    t.readReg 15#4 = (if (s.readReg x).toNat + (s.readReg y).toNat ≥ 256 then 0x01#8 else 0x00#8) ∧
    (x ≠ 15#4 → t.readReg x = BitVec.ofNat 8 (((s.readReg x).toNat + (s.readReg y).toNat) % 256)) ∧
    (∀ i, i ≠ x → i ≠ 15#4 → t.readReg i = s.readReg i) ∧
    t = { s with regs := t.regs })

/-- The adder alone (the spec's inference in R76): sum and carry together are the exact 9-bit sum of the two inputs, and
there is no carry input: the result of `ADD_XY` does not depend on the flag unless a source names register 15. -/
def Obligations.AdderGivesTheExactNineBitSum : Prop :=
  (∀ a b : Byte, (aluCarry a b).toNat * 256 + (aluSum a b).toNat = a.toNat + b.toNat) ∧
  (∀ (x y : Nibble) (s t u : State) (v : Byte), x ≠ 15#4 → y ≠ 15#4 →
    exec (.addXy x y) s = .next t → exec (.addXy x y) (s.writeReg 15#4 v) = .next u →
    ∀ i, u.readReg i = t.readReg i)

/-- R79. `CALL`: the words, the step, the push of the return address, and `STACK_OVERFLOW` with nothing written when 16
return addresses are pending. -/
def Obligations.CallPushesAndJumps : Prop :=
  (∀ (op : Word) (nnn : Addr), decodeWord op = some (.call nnn) ↔
    highByte op = (0x20#8 ||| (nnn.extractLsb' 8 4).setWidth 8) ∧ lowByte op = nnn.extractLsb' 0 8) ∧
  (∀ (s : State) (op : Word) (nnn : Addr), s.runState = .running → s.fetch = some op →
    decodeWord op = some (.call nnn) →
    step s = exec (.call nnn) { s with pc := s.pc + 2#16 } ∧
      2 ≤ (s.pc + 2#16).toNat ∧ (s.pc + 2#16).toNat ≤ 4096 ∧ (s.pc + 2#16).toNat = s.pc.toNat + 2) ∧
  (∀ (nnn : Addr) (s : State) (h : s.sp.val < 16), ∃ t, exec (.call nnn) s = .next t ∧
    t.cell ⟨s.sp.val, h⟩ = s.pc ∧ (∀ j : Fin 16, j.val ≠ s.sp.val → t.cell j = s.cell j) ∧
    t.sp.val = s.sp.val + 1 ∧
    t = { s with stack := t.stack, sp := t.sp, pc := nnn.setWidth 16 }) ∧
  (∀ (nnn : Addr) (s : State), s.sp.val = 16 →
    exec (.call nnn) s =
      .next { s with runState := .faulted, faultCause := .stackOverflow, faultInfo := 0x2000#16 ||| nnn.setWidth 16 }) ∧
  (∀ s t : State, s.runState = .running → s.sp.val < 16 → exec (.call 0xFFF) s = .next t →
    step t = .next { t with runState := .faulted, faultCause := .fetchOutOfBounds, faultInfo := 0x0FFF#16 })

/-- R80. `RETURN`: the word, the step, the pop into `pc` with the cell kept, and `STACK_UNDERFLOW` with nothing written
when no call is pending. -/
def Obligations.ReturnPopsIntoPc : Prop :=
  (∀ op : Word, decodeWord op = some .ret ↔ op = 0x00EE#16) ∧
  (∀ s : State, s.runState = .running → s.fetch = some 0x00EE#16 →
    step s = exec .ret { s with pc := s.pc + 2#16 }) ∧
  (∀ (s : State) (j : Fin 16), s.sp.val = j.val + 1 → ∃ t, exec .ret s = .next t ∧
    t.sp.val = j.val ∧ t.pc = s.cell j ∧ t = { s with sp := t.sp, pc := t.pc }) ∧
  (∀ s : State, s.sp.val = 0 →
    exec .ret s = .next { s with runState := .faulted, faultCause := .stackUnderflow, faultInfo := 0x00EE#16 })

/-- R85, R90, R58. Every word that is none of the four instructions faults with the word itself, the advance of `pc` kept and
nothing else changed; and how many words of each class are instructions, so that the others of the 4096 are not. -/
def Obligations.UnimplementedWordFaults : Prop :=
  (List.range 16).map (fun c =>
    (List.range 4096).countP (fun n => (decodeWord (BitVec.ofNat 16 (c * 4096 + n))).isSome)) =
    [2, 0, 4096, 0, 0, 0, 0, 0, 256, 0, 0, 0, 0, 0, 0, 0] ∧
  ∀ (s : State) (op : Word), s.runState = .running → s.fetch = some op →
    op &&& 0xFFFF#16 ≠ 0x0000#16 → op &&& 0xF00F#16 ≠ 0x8004#16 → op &&& 0xF000#16 ≠ 0x2000#16 →
    op &&& 0xFFFF#16 ≠ 0x00EE#16 →
    step s = .next { s with
      pc := s.pc + 2#16, runState := .faulted, faultCause := .unimplementedOpcode, faultInfo := op } ∧
    FaultCause.unimplementedOpcode.code = 3

/-- R81. A `CALL` at `A` and a later `RETURN` that finds `sp` one higher and the pushed cell not overwritten are inverses on
`pc` and `sp`; the cell keeps `A + 2`. -/
def Obligations.ReturnUndoesCall : Prop :=
  ∀ (s t u : State) (op : Word) (nnn : Addr) (h : s.sp.val < 16),
    s.runState = .running → s.fetch = some op → decodeWord op = some (.call nnn) → step s = .next t →
    u.runState = .running → u.fetch = some 0x00EE#16 → u.sp.val = s.sp.val + 1 →
    u.cell ⟨s.sp.val, h⟩ = t.cell ⟨s.sp.val, h⟩ →
    ∃ v, step u = .next v ∧ v.pc = s.pc + 2#16 ∧ v.sp = s.sp ∧ v.cell ⟨s.sp.val, h⟩ = s.pc + 2#16

/-- R23, R50. The two stack operations: push is refused at 16 and pop at 0, with nothing written; otherwise they do what the
rule says, and a pop keeps the cell. A push changes no byte of memory, and no fetch reads a stack cell. -/
def Obligations.PushAndPopStayInTheStack : Prop :=
  (∀ (s : State) (v : Word), s.sp.val = 16 → s.push v = none) ∧
  (∀ (s : State) (v : Word) (h : s.sp.val < 16), ∃ t, s.push v = some t ∧ t.cell ⟨s.sp.val, h⟩ = v ∧
    t.sp.val = s.sp.val + 1 ∧ (∀ j : Fin 16, j.val ≠ s.sp.val → t.cell j = s.cell j) ∧
    t = { s with stack := t.stack, sp := t.sp }) ∧
  (∀ s : State, s.sp.val = 0 → s.pop = none) ∧
  (∀ (s : State) (j : Fin 16), s.sp.val = j.val + 1 →
    ∃ t, s.pop = some (s.cell j, t) ∧ t.sp.val = j.val ∧ t = { s with sp := t.sp }) ∧
  (∀ (nnn : Addr) (s : State), s.push s.pc = none →
    ∃ t, exec (.call nnn) s = .next t ∧ t.goneWrong ∧ t.faultCause = .stackOverflow ∧ t.stack = s.stack ∧ t.sp = s.sp) ∧
  (∀ s : State, s.pop = none →
    ∃ t, exec .ret s = .next t ∧ t.goneWrong ∧ t.faultCause = .stackUnderflow ∧ t.stack = s.stack ∧ t.sp = s.sp) ∧
  (∀ (s : State) (k : Vector Word 16) (j : Fin 17), State.fetch { s with stack := k, sp := j } = s.fetch)

/-- How `sp` counts the pending calls (the step-by-step form of R82): a `CALL` that succeeds adds one, a `RETURN` that
succeeds takes one away, and no other step and no move of the host but reset changes it. -/
def Obligations.StackPointerCountsPendingCalls : Prop :=
  (∀ s t : State, step s = .next t →
    t.sp = s.sp ∨
    (s.runState = .running ∧ ∃ op, s.fetch = some op ∧
      (((∃ nnn, decodeWord op = some (.call nnn)) ∧ t.sp.val = s.sp.val + 1) ∨
        (decodeWord op = some .ret ∧ t.sp.val + 1 = s.sp.val)))) ∧
  (∀ (s t : State) (c : HostCommand), c ≠ .reset → hostMove c s = .next t → t.sp = s.sp) ∧
  (∀ (s t : State) (op : Word) (nnn : Addr), s.runState = .running → s.fetch = some op →
    decodeWord op = some (.call nnn) → step s = .next t →
    (s.sp.val < 16 → t.sp.val = s.sp.val + 1 ∧ t.runState = .running) ∧
    (s.sp.val = 16 → t.goneWrong ∧ t.faultCause = .stackOverflow)) ∧
  (∀ (s t : State), s.runState = .running → s.fetch = some 0x00EE#16 → step s = .next t →
    (0 < s.sp.val → t.sp.val + 1 = s.sp.val ∧ t.runState = .running) ∧
    (s.sp.val = 0 → t.goneWrong ∧ t.faultCause = .stackUnderflow))

/-! ## Frames -/

/-- What `HALT` leaves unchanged: every register, every byte of memory, the program counter, the stack and its pointer, the
fault record. -/
def Obligations.HaltFrame : Prop :=
  ∀ s t : State, exec .halt s = .next t →
    (∀ i, t.readReg i = s.readReg i) ∧ (∀ a, t.mem.read a = s.mem.read a) ∧ t.pc = s.pc ∧
    (∀ j, t.cell j = s.cell j) ∧ t.sp = s.sp ∧ t.faultCause = s.faultCause ∧ t.faultInfo = s.faultInfo

/-- What `ADD_XY` leaves unchanged: every register but `x[X]` and the flag register 15, every byte of memory, the program
counter, the stack and its pointer, the status registers. -/
def Obligations.AddXyFrame : Prop :=
  ∀ (x y : Nibble) (s t : State), exec (.addXy x y) s = .next t →
    (∀ i, i ≠ x → i ≠ 15#4 → t.readReg i = s.readReg i) ∧ (∀ a, t.mem.read a = s.mem.read a) ∧ t.pc = s.pc ∧
    (∀ j, t.cell j = s.cell j) ∧ t.sp = s.sp ∧
    t.runState = s.runState ∧ t.faultCause = s.faultCause ∧ t.faultInfo = s.faultInfo

/-- What `CALL` and `RETURN` leave unchanged: every register, the flag register 15 among them, and every byte of memory. A
`CALL` that succeeds leaves every stack cell but `stack[sp]`; every other form leaves every stack cell; a form that
succeeds leaves the status registers. -/
def Obligations.CallAndReturnFrame : Prop :=
  (∀ (nnn : Addr) (s t : State), exec (.call nnn) s = .next t →
    (∀ i, t.readReg i = s.readReg i) ∧ (∀ a, t.mem.read a = s.mem.read a) ∧
    (∀ j : Fin 16, j.val ≠ s.sp.val → t.cell j = s.cell j) ∧
    (s.sp.val < 16 → t.runState = s.runState ∧ t.faultCause = s.faultCause ∧ t.faultInfo = s.faultInfo) ∧
    (s.sp.val = 16 → t.sp = s.sp ∧ t.pc = s.pc ∧ ∀ j, t.cell j = s.cell j)) ∧
  (∀ s t : State, exec .ret s = .next t →
    (∀ i, t.readReg i = s.readReg i) ∧ (∀ a, t.mem.read a = s.mem.read a) ∧ (∀ j, t.cell j = s.cell j) ∧
    (0 < s.sp.val → t.runState = s.runState ∧ t.faultCause = s.faultCause ∧ t.faultInfo = s.faultInfo) ∧
    (s.sp.val = 0 → t.sp = s.sp ∧ t.pc = s.pc))

/-- No step writes memory (the spec's inference in R36): every byte reads after any step as before it, and the memory is the
same data. -/
def Obligations.NoStepWritesMemory : Prop :=
  ∀ s t : State, step s = .next t → t.mem = s.mem ∧ ∀ a, t.mem.read a = s.mem.read a

/-- No instruction reads a register as a condition (R14, last sentence): the contents of the registers have no influence on
anything but the registers. -/
def Obligations.RegistersNeverSteerTheRun : Prop :=
  ∀ (s t : State) (r : Vector Byte 16), step s = .next t →
    ∃ r', step { s with regs := r } = .next { t with regs := r' }

/-- R77. After an `ADD_XY` register 15 is 1 or 0, the zero-extended carry of that sum, whatever it held before; so a carry
is not sticky. -/
def Obligations.FlagIsReplacedByEveryAdd : Prop :=
  ∀ (x y : Nibble) (s : State), ∃ t, exec (.addXy x y) s = .next t ∧
    (t.readReg 15#4 = 0x00#8 ∨ t.readReg 15#4 = 0x01#8) ∧
    t.readReg 15#4 = (aluCarry (s.readReg x) (s.readReg y)).setWidth 8 ∧
    ((s.readReg x).toNat + (s.readReg y).toNat < 256 → t.readReg 15#4 = 0x00#8) ∧
    (256 ≤ (s.readReg x).toNat + (s.readReg y).toNat → t.readReg 15#4 = 0x01#8)

/-! ## Faults -/

/-- R93. Fault entry, as one operation: the status registers are written and nothing else changes; nothing is saved and `pc`
goes nowhere. -/
def Obligations.FaultEntryWritesTheStatusRegisters : Prop :=
  ∀ (s : State) (cause : FaultCause) (info : Word),
    s.raiseFault cause info = { s with runState := .faulted, faultCause := cause, faultInfo := info } ∧
    (s.raiseFault cause info).pc = s.pc ∧ (s.raiseFault cause info).sp = s.sp ∧
    (∀ i, (s.raiseFault cause info).readReg i = s.readReg i) ∧
    (∀ j, (s.raiseFault cause info).cell j = s.cell j) ∧
    (∀ a, (s.raiseFault cause info).mem.read a = s.mem.read a) ∧
    ∀ t, step (s.raiseFault cause info) = .next t → t = s.raiseFault cause info

/-- R87, R88, R89, R90. The four fault causes: each is raised by a step of a running core exactly under its condition, with
its information word, and with the program counter the table gives. -/
def Obligations.FaultCausesAndTheirConditions : Prop :=
  FaultCause.stackOverflow.code = 1 ∧ FaultCause.stackUnderflow.code = 2 ∧
  FaultCause.unimplementedOpcode.code = 3 ∧ FaultCause.fetchOutOfBounds.code = 4 ∧ FaultCause.noFault.code = 0 ∧
  ∀ s t : State, s.runState = .running → step s = .next t →
    ((t.goneWrong ∧ t.faultCause = .stackOverflow) ↔
      ∃ op nnn, s.fetch = some op ∧ decodeWord op = some (.call nnn) ∧ s.sp.val = 16) ∧
    ((t.goneWrong ∧ t.faultCause = .stackUnderflow) ↔
      ∃ op, s.fetch = some op ∧ decodeWord op = some .ret ∧ s.sp.val = 0) ∧
    ((t.goneWrong ∧ t.faultCause = .unimplementedOpcode) ↔ ∃ op, s.fetch = some op ∧ decodeWord op = none) ∧
    ((t.goneWrong ∧ t.faultCause = .fetchOutOfBounds) ↔ 4095 ≤ s.pc.toNat) ∧
    (t.goneWrong → t.faultCause ≠ .noFault ∧ t.sp = s.sp ∧ t.stack = s.stack ∧
      (t.faultCause ≠ .fetchOutOfBounds → s.fetch = some t.faultInfo ∧ t.pc = s.pc + 2#16) ∧
      (t.faultCause = .fetchOutOfBounds → t.faultInfo = s.pc ∧ t.pc = s.pc))

/-- R94. The state a fault leaves: a faulting step has done nothing but advance `pc` (not even that for the fetch fault) and
write the status registers, so the faulting word stands at `pc - 2` (at `pc`); and the host can read the state. -/
def Obligations.FaultsArePrecise : Prop :=
  ∀ s t : State, s.runState = .running → step s = .next t → t.goneWrong →
    (t.faultCause ≠ .fetchOutOfBounds →
      t = { s with pc := s.pc + 2#16, runState := .faulted, faultCause := t.faultCause, faultInfo := t.faultInfo } ∧
        t.pc.toNat = s.pc.toNat + 2 ∧ t.wordAt (t.pc.toNat - 2) = t.faultInfo) ∧
    (t.faultCause = .fetchOutOfBounds →
      t = { s with runState := .faulted, faultCause := t.faultCause, faultInfo := t.faultInfo }) ∧
    (∀ u, step t = .next u → u = t) ∧ ∀ p, hostRead p t = probeValue p t

/-- R96. There is no return from a fault: a faulted core makes no further step and keeps its cause and information; only
reset leaves `FAULTED`, and it clears both. -/
def Obligations.FaultedIsTerminal : Prop :=
  (∀ s t : State, s.goneWrong → step s = .next t → t = s) ∧
  (∀ (s : State) (c : HostCommand), s.goneWrong → c ≠ .reset → hostMove c s = .next s) ∧
  (∀ s : State, s.goneWrong → ∃ t, hostMove .reset s = .next t ∧
    t.runState = .idle ∧ t.faultCause = .noFault ∧ t.faultInfo = 0#16)

/-! ## The machine -/

/-- The invariant holds at reset. -/
def Obligations.ResetMeetsTheInvariant : Prop := State.reset.Inv

/-- Every step keeps the invariant, from every state that meets it: memory in canonical form, `pc` in 0 to 4096, return
addresses from 2 to 4096 in the stack, a fault recorded exactly in `FAULTED` with the word that caused it. The range of
`pc` and the contents of the stack are the spec's inferences in R18 and R24. -/
def Obligations.StepKeepsTheInvariant : Prop :=
  ∀ s t : State, s.Inv → step s = .next t → t.Inv

/-- Every move of the host keeps the invariant. -/
def Obligations.HostMovesKeepTheInvariant : Prop :=
  ∀ (s t : State) (c : HostCommand), s.Inv → hostMove c s = .next t → t.Inv

/-- In every state the machine can be in `pc` is 0 to 4096 (R18), every stack cell is 0 or a return address and the cells
below `sp` are return addresses (R24), and a fault cause is recorded exactly in `FAULTED` (R26). -/
def Obligations.ReachableStatesAreLegal : Prop :=
  ∀ s : State, Reachable s →
    s.pc.toNat ≤ 4096 ∧
    (∀ j : Fin 16, j.val < s.sp.val → 2 ≤ (s.cell j).toNat ∧ (s.cell j).toNat ≤ 4096) ∧
    (∀ j : Fin 16, s.cell j = 0#16 ∨ (2 ≤ (s.cell j).toNat ∧ (s.cell j).toNat ≤ 4096)) ∧
    (s.faultCause = .noFault ↔ s.runState ≠ .faulted) ∧
    (s.faultCause = .noFault → s.faultInfo = 0#16) ∧
    s.mem.wf = true

/-- Every run of the subset ends: from every running state, reachable or not, finitely many steps lead to `HALTED` or
`FAULTED` (the spec's inference in R84). Nothing in the machine bounds the run; this follows from the four instructions. -/
def Obligations.EveryRunEnds : Prop :=
  ∀ s : State, s.runState = .running →
    ∃ n t, Host.Core.run Sys2Proof.core n s = .next t ∧ (t.runState = .halted ∨ t.runState = .faulted)
end

