-- ==== Sys2Proof/Laws/Decode.lean ====
section
/-! SUPPORT. Bytes and words: an opcode and its two bytes determine each other (R39, R64). -/

namespace Sys2Proof

theorem opcodeOf_toNat (high low : Byte) : (opcodeOf high low).toNat = high.toNat * 256 + low.toNat := by
  have h := high.isLt
  have l := low.isLt
  have hl : low.toNat % 2 ^ 16 = low.toNat := Nat.mod_eq_of_lt (by omega)
  have hh : (high.toNat % 2 ^ 16) <<< 8 % 2 ^ 16 = high.toNat <<< 8 := by simp only [Nat.shiftLeft_eq]; omega
  simp only [opcodeOf, BitVec.toNat_or, BitVec.toNat_shiftLeft, BitVec.toNat_setWidth, hl, hh]
  rw [← Nat.shiftLeft_add_eq_or_of_lt l, Nat.shiftLeft_eq]

theorem highByte_toNat (op : Word) : (highByte op).toNat = op.toNat / 256 := by
  have h := op.isLt
  simp only [highByte, BitVec.extractLsb'_toNat, Nat.shiftRight_eq_div_pow]
  omega

theorem lowByte_toNat (op : Word) : (lowByte op).toNat = op.toNat % 256 := by
  simp [lowByte, BitVec.extractLsb'_toNat]

/-- The two bytes of a word make the word again. -/
@[simp] theorem opcodeOf_bytes (op : Word) : opcodeOf (highByte op) (lowByte op) = op := by
  apply BitVec.eq_of_toNat_eq
  rw [opcodeOf_toNat, highByte_toNat, lowByte_toNat]
  omega

@[simp] theorem highByte_opcodeOf (high low : Byte) : highByte (opcodeOf high low) = high := by
  apply BitVec.eq_of_toNat_eq
  have l := low.isLt
  rw [highByte_toNat, opcodeOf_toNat]
  omega

@[simp] theorem lowByte_opcodeOf (high low : Byte) : lowByte (opcodeOf high low) = low := by
  apply BitVec.eq_of_toNat_eq
  have l := low.isLt
  rw [lowByte_toNat, opcodeOf_toNat]
  omega

/-! The fields of a word, and the words of the encoder, as numbers (R52, R62) -/

theorem fieldsOf_c_toNat (op : Word) : (fieldsOf op).c.toNat = op.toNat / 4096 := by
  have := op.isLt
  simp only [fieldsOf, BitVec.extractLsb'_toNat, Nat.shiftRight_eq_div_pow]
  omega

theorem fieldsOf_x_toNat (op : Word) : (fieldsOf op).x.toNat = op.toNat / 256 % 16 := by
  simp only [fieldsOf, BitVec.extractLsb'_toNat, Nat.shiftRight_eq_div_pow]

theorem fieldsOf_y_toNat (op : Word) : (fieldsOf op).y.toNat = op.toNat / 16 % 16 := by
  simp only [fieldsOf, BitVec.extractLsb'_toNat, Nat.shiftRight_eq_div_pow]

theorem fieldsOf_d_toNat (op : Word) : (fieldsOf op).d.toNat = op.toNat % 16 := by
  simp [fieldsOf, BitVec.extractLsb'_toNat]

theorem fieldsOf_nnn_toNat (op : Word) : (fieldsOf op).nnn.toNat = op.toNat % 4096 := by
  simp [fieldsOf, BitVec.extractLsb'_toNat]

theorem encode_addXy_toNat : ∀ x y : Nibble,
    (encode (.addXy x y)).toNat = 0x8004 + x.toNat * 256 + y.toNat * 16 := by
  decide +kernel

theorem encode_call_toNat : ∀ nnn : Addr, (encode (.call nnn)).toNat = 0x2000 + nnn.toNat := by
  decide +kernel

/-- Decoding two bytes is decoding the word they make; the bytes after them are left over (R51). -/
theorem decode_cons (high low : Byte) (rest : List Byte) :
    decode (high :: low :: rest) =
      match decodeWord (opcodeOf high low) with
      | some i => .ok (i, rest)
      | none => .error (.unimplementedOpcode (opcodeOf high low)) := rfl

/-- Reading a table word is decoding its opcode. -/
theorem decodeTableWord_eq (nbits w : Nat) : decodeTableWord nbits w = decodeWord (tableOpcode nbits w) := by
  unfold decodeTableWord tableBytes
  rw [decode_cons, opcodeOf_bytes]
  cases decodeWord (tableOpcode nbits w) <;> rfl

/-- Every instruction is well-formed: its operands are in range by their types (R13). -/
@[simp] theorem Instr.wellFormed_true (i : Instr) : i.wellFormed = true := by
  cases i with
  | addXy x y => simp [Instr.wellFormed, Instr.toSource, Source.wellFormed, regNumberOk, x.isLt, y.isLt]
  | call nnn => simp [Instr.wellFormed, Instr.toSource, Source.wellFormed, targetOk, nnn.isLt]
  | _ => rfl

/-- An instruction is the one its source names. -/
theorem Instr.toInstr_toSource (i : Instr) : i.toSource.toInstr = some i := by
  have h := i.wellFormed_true
  unfold Instr.wellFormed at h
  cases i <;> simp_all [Source.toInstr, Instr.toSource]

end Sys2Proof
end

