-- ==== Sys2Proof/Laws/Memory.lean ====
section
/-! SUPPORT. The laws of memory: read after write, the canonical form is kept, and equal memories are equal lists. -/

namespace Sys2Proof.Machine

@[simp] theorem Memory.wfFrom_nil (lo : Nat) : Memory.wfFrom lo [] = true := rfl

@[simp] theorem Memory.wfFrom_cons (lo a : Nat) (v : Byte) (m : Memory) :
    Memory.wfFrom lo ((a, v) :: m) = true ↔
      lo ≤ a ∧ a < Config.memSize ∧ v ≠ Memory.unlisted ∧ Memory.wfFrom (a + 1) m = true := by
  simp [Memory.wfFrom, and_assoc]

/-- A canonical form from an address on is one from every lower address on. -/
theorem Memory.wfFrom_of_le {lo lo' : Nat} (h : lo' ≤ lo) : ∀ {m : Memory}, m.wfFrom lo = true → m.wfFrom lo' = true
  | [], _ => rfl
  | (a, v) :: m, w => by
    rw [Memory.wfFrom_cons] at w ⊢
    exact ⟨h.trans w.1, w.2⟩

/-- Below the first address of a canonical form every cell is unlisted. -/
theorem Memory.get_of_lt_wfFrom {a lo : Nat} (h : a < lo) : ∀ {m : Memory}, m.wfFrom lo = true → m.get a = Memory.unlisted
  | [], _ => rfl
  | (b, v) :: m, w => by
    rw [Memory.wfFrom_cons] at w
    have hb : a ≠ b := by omega
    simp only [Memory.get, hb, if_false]
    exact Memory.get_of_lt_wfFrom (lo := b + 1) (by omega) w.2.2.2

/-- A write keeps the canonical form. -/
theorem Memory.wfFrom_set {a lo : Nat} (v : Byte) (hlo : lo ≤ a) (ha : a < Config.memSize) :
    ∀ {m : Memory}, m.wfFrom lo = true → (m.set a v).wfFrom lo = true
  | [], _ => by
    by_cases hv : v = Memory.unlisted
    · simp [Memory.set, hv]
    · simp [Memory.set, hv, hlo, ha]
  | (b, w) :: m, wf => by
    have hm := (Memory.wfFrom_cons ..).mp wf
    simp only [Memory.set]
    split
    · next hab =>
      split
      · exact wf
      · next hv => simp [hlo, ha, hv, hm.2.1, hm.2.2.1, hm.2.2.2, Nat.succ_le_of_lt hab]
    · split
      · next hab =>
        split
        · exact Memory.wfFrom_of_le (by omega) hm.2.2.2
        · next hv => rw [Memory.wfFrom_cons]; exact ⟨hlo, ha, hv, hab ▸ hm.2.2.2⟩
      · next h1 h2 =>
        rw [Memory.wfFrom_cons]
        exact ⟨hm.1, hm.2.1, hm.2.2.1, Memory.wfFrom_set v (by omega) ha hm.2.2.2⟩

theorem Memory.wf_set {m : Memory} {a : Nat} (v : Byte) (ha : a < Config.memSize) (h : m.wf = true) :
    (m.set a v).wf = true :=
  Memory.wfFrom_set v (Nat.zero_le a) ha h

/-- `MemWrite` keeps the canonical form (R38). -/
theorem Memory.wf_of_write {m t : Memory} {a : Nat} {v : Byte} (e : m.write a v = some t) (h : m.wf = true) :
    t.wf = true := by
  unfold Memory.write at e
  split at e
  · next ha => cases e; exact Memory.wf_set v ha h
  · cases e

theorem Memory.get_set_self_from {a lo : Nat} (v : Byte) : ∀ {m : Memory}, m.wfFrom lo = true → (m.set a v).get a = v
  | [], _ => by
    by_cases hv : v = Memory.unlisted
    · simp [Memory.set, hv, Memory.get]
    · simp [Memory.set, hv, Memory.get]
  | (b, w) :: m, wf => by
    have hm := (Memory.wfFrom_cons ..).mp wf
    simp only [Memory.set]
    split
    · next hab =>
      split
      · next hv => rw [hv]; exact Memory.get_of_lt_wfFrom hab (lo := b) (by simp [hm.2.1, hm.2.2.1, hm.2.2.2])
      · simp [Memory.get]
    · split
      · next hab =>
        split
        · next hv => rw [hv]; exact Memory.get_of_lt_wfFrom (by omega) hm.2.2.2
        · simp [Memory.get]
      · next h2 =>
        simp only [Memory.get, h2, if_false]
        exact Memory.get_set_self_from v hm.2.2.2

/-- A cell reads as it was last written. -/
theorem Memory.get_set_self {m : Memory} (a : Nat) (v : Byte) (h : m.wf = true) : (m.set a v).get a = v :=
  Memory.get_set_self_from v h

/-- A write leaves every other cell as it was. -/
theorem Memory.get_set_ne {a b : Nat} (v : Byte) (h : b ≠ a) : ∀ (m : Memory), (m.set a v).get b = m.get b
  | [] => by
    by_cases hv : v = Memory.unlisted
    · simp [Memory.set, hv]
    · simp [Memory.set, hv, Memory.get, h]
  | (c, w) :: m => by
    simp only [Memory.set]
    split
    · split
      · rfl
      · simp [Memory.get, h]
    · split
      · next hac => subst hac; split <;> simp [Memory.get, h]
      · by_cases hbc : b = c
        · simp [Memory.get, hbc]
        · simp only [Memory.get, hbc, if_false]
          exact Memory.get_set_ne v h m

theorem Memory.eq_of_get_from : ∀ {lo : Nat} {m n : Memory}, m.wfFrom lo = true → n.wfFrom lo = true →
    (∀ a, m.get a = n.get a) → m = n
  | _, [], [], _, _, _ => rfl
  | _, [], (b, w) :: n, _, hn, e => by
    have hn := (Memory.wfFrom_cons ..).mp hn
    have := e b
    simp only [Memory.get, if_true] at this
    exact absurd this.symm hn.2.2.1
  | _, (b, w) :: m, [], hm, _, e => by
    have hm := (Memory.wfFrom_cons ..).mp hm
    have := e b
    simp only [Memory.get, if_true] at this
    exact absurd this hm.2.2.1
  | lo, (b, w) :: m, (c, u) :: n, hm, hn, e => by
    have hm' := (Memory.wfFrom_cons ..).mp hm
    have hn' := (Memory.wfFrom_cons ..).mp hn
    have low : ∀ {x y : Nat} {k : Memory}, x < y → k.wfFrom (y + 1) = true → k.get x = Memory.unlisted :=
      fun hxy hk => Memory.get_of_lt_wfFrom (Nat.lt_succ_of_lt hxy) hk
    rcases Nat.lt_trichotomy b c with h | h | h
    · have hb := e b
      simp only [Memory.get, if_true, if_neg (Nat.ne_of_lt h), low h hn'.2.2.2] at hb
      exact absurd hb hm'.2.2.1
    · subst h
      have hb := e b
      simp only [Memory.get, if_true] at hb
      have hrest : m = n := by
        refine Memory.eq_of_get_from hm'.2.2.2 hn'.2.2.2 fun a => ?_
        by_cases hab : a = b
        · subst hab
          rw [Memory.get_of_lt_wfFrom (Nat.lt_succ_self a) hm'.2.2.2, Memory.get_of_lt_wfFrom (Nat.lt_succ_self a) hn'.2.2.2]
        · have ha := e a
          simpa only [Memory.get, if_neg hab] using ha
      rw [hb, hrest]
    · have hc := e c
      simp only [Memory.get, if_true, if_neg (Nat.ne_of_lt h), low h hm'.2.2.2] at hc
      exact absurd hc.symm hn'.2.2.1

/-- Canonical memories that read the same everywhere are the same list. -/
theorem Memory.eq_of_get {m n : Memory} (hm : m.wf = true) (hn : n.wf = true) (e : ∀ a, m.get a = n.get a) : m = n :=
  Memory.eq_of_get_from hm hn e

/-- `MemRead` inside the address space (R37). -/
theorem Memory.read_of_lt {m : Memory} {a : Nat} (h : a < Config.memSize) : m.read a = some (m.get a) := if_pos h

/-- `MemRead` outside the address space has no value (R37). -/
theorem Memory.read_of_ge {m : Memory} {a : Nat} (h : Config.memSize ≤ a) : m.read a = none :=
  if_neg (Nat.not_lt_of_ge h)

end Sys2Proof.Machine
end

