-- ==== Sys2Proof/Laws/State.lean ====
section
/-! SUPPORT. One lemma per field per update of the state, and what a register read finds after a register write. -/

namespace Sys2Proof.Machine

/-! `writeReg` -/

@[simp] theorem writeReg_mem (s : State) (i : Nibble) (v : Byte) : (s.writeReg i v).mem = s.mem := rfl
@[simp] theorem writeReg_pc (s : State) (i : Nibble) (v : Byte) : (s.writeReg i v).pc = s.pc := rfl
@[simp] theorem writeReg_stack (s : State) (i : Nibble) (v : Byte) : (s.writeReg i v).stack = s.stack := rfl
@[simp] theorem writeReg_sp (s : State) (i : Nibble) (v : Byte) : (s.writeReg i v).sp = s.sp := rfl
@[simp] theorem writeReg_runState (s : State) (i : Nibble) (v : Byte) : (s.writeReg i v).runState = s.runState := rfl
@[simp] theorem writeReg_faultCause (s : State) (i : Nibble) (v : Byte) : (s.writeReg i v).faultCause = s.faultCause := rfl
@[simp] theorem writeReg_faultInfo (s : State) (i : Nibble) (v : Byte) : (s.writeReg i v).faultInfo = s.faultInfo := rfl
@[simp] theorem writeReg_cell (s : State) (i : Nibble) (v : Byte) (j : Fin 16) : (s.writeReg i v).cell j = s.cell j := rfl

/-- A register reads as it was last written. -/
@[simp] theorem readReg_writeReg_self (s : State) (i : Nibble) (v : Byte) : (s.writeReg i v).readReg i = v := by
  simp [State.readReg, State.writeReg]

/-- A register write leaves every other register as it was. -/
theorem readReg_writeReg_ne (s : State) {i j : Nibble} (v : Byte) (h : j ≠ i) :
    (s.writeReg i v).readReg j = s.readReg j := by
  have : i.toNat ≠ j.toNat := fun e => h (BitVec.eq_of_toNat_eq e.symm)
  simp [State.readReg, State.writeReg, Vector.getElem_set_ne, this]

/-! `writeFlag` -/

@[simp] theorem writeFlag_mem (s : State) (c : BitVec 1) : (s.writeFlag c).mem = s.mem := rfl
@[simp] theorem writeFlag_pc (s : State) (c : BitVec 1) : (s.writeFlag c).pc = s.pc := rfl
@[simp] theorem writeFlag_stack (s : State) (c : BitVec 1) : (s.writeFlag c).stack = s.stack := rfl
@[simp] theorem writeFlag_sp (s : State) (c : BitVec 1) : (s.writeFlag c).sp = s.sp := rfl
@[simp] theorem writeFlag_runState (s : State) (c : BitVec 1) : (s.writeFlag c).runState = s.runState := rfl
@[simp] theorem writeFlag_faultCause (s : State) (c : BitVec 1) : (s.writeFlag c).faultCause = s.faultCause := rfl
@[simp] theorem writeFlag_faultInfo (s : State) (c : BitVec 1) : (s.writeFlag c).faultInfo = s.faultInfo := rfl
@[simp] theorem writeFlag_cell (s : State) (c : BitVec 1) (j : Fin 16) : (s.writeFlag c).cell j = s.cell j := rfl

/-! `movePc` -/

@[simp] theorem movePc_pc (s : State) (op : PcOp) : (s.movePc op).pc = nextPc s.pc op := rfl
@[simp] theorem movePc_regs (s : State) (op : PcOp) : (s.movePc op).regs = s.regs := rfl
@[simp] theorem movePc_mem (s : State) (op : PcOp) : (s.movePc op).mem = s.mem := rfl
@[simp] theorem movePc_stack (s : State) (op : PcOp) : (s.movePc op).stack = s.stack := rfl
@[simp] theorem movePc_sp (s : State) (op : PcOp) : (s.movePc op).sp = s.sp := rfl
@[simp] theorem movePc_runState (s : State) (op : PcOp) : (s.movePc op).runState = s.runState := rfl
@[simp] theorem movePc_faultCause (s : State) (op : PcOp) : (s.movePc op).faultCause = s.faultCause := rfl
@[simp] theorem movePc_faultInfo (s : State) (op : PcOp) : (s.movePc op).faultInfo = s.faultInfo := rfl
@[simp] theorem movePc_readReg (s : State) (op : PcOp) (i : Nibble) : (s.movePc op).readReg i = s.readReg i := rfl
@[simp] theorem movePc_cell (s : State) (op : PcOp) (j : Fin 16) : (s.movePc op).cell j = s.cell j := rfl
@[simp] theorem nextPc_advance (pc : Word) : nextPc pc .advance = pc + 2#16 := rfl
@[simp] theorem nextPc_loadNnn (pc : Word) (nnn : Addr) : nextPc pc (.loadNnn nnn) = nnn.setWidth 16 := rfl
@[simp] theorem nextPc_loadPop (pc v : Word) : nextPc pc (.loadPop v) = v := rfl

/-! `haltRun` -/

@[simp] theorem haltRun_regs (s : State) : s.haltRun.regs = s.regs := rfl
@[simp] theorem haltRun_mem (s : State) : s.haltRun.mem = s.mem := rfl
@[simp] theorem haltRun_pc (s : State) : s.haltRun.pc = s.pc := rfl
@[simp] theorem haltRun_stack (s : State) : s.haltRun.stack = s.stack := rfl
@[simp] theorem haltRun_sp (s : State) : s.haltRun.sp = s.sp := rfl
@[simp] theorem haltRun_runState (s : State) : s.haltRun.runState = .halted := rfl
@[simp] theorem haltRun_faultCause (s : State) : s.haltRun.faultCause = s.faultCause := rfl
@[simp] theorem haltRun_faultInfo (s : State) : s.haltRun.faultInfo = s.faultInfo := rfl
@[simp] theorem haltRun_readReg (s : State) (i : Nibble) : s.haltRun.readReg i = s.readReg i := rfl
@[simp] theorem haltRun_cell (s : State) (j : Fin 16) : s.haltRun.cell j = s.cell j := rfl

/-! `raiseFault` (R93) -/

@[simp] theorem raiseFault_regs (s : State) (c : FaultCause) (w : Word) : (s.raiseFault c w).regs = s.regs := rfl
@[simp] theorem raiseFault_mem (s : State) (c : FaultCause) (w : Word) : (s.raiseFault c w).mem = s.mem := rfl
@[simp] theorem raiseFault_pc (s : State) (c : FaultCause) (w : Word) : (s.raiseFault c w).pc = s.pc := rfl
@[simp] theorem raiseFault_stack (s : State) (c : FaultCause) (w : Word) : (s.raiseFault c w).stack = s.stack := rfl
@[simp] theorem raiseFault_sp (s : State) (c : FaultCause) (w : Word) : (s.raiseFault c w).sp = s.sp := rfl
@[simp] theorem raiseFault_runState (s : State) (c : FaultCause) (w : Word) : (s.raiseFault c w).runState = .faulted := rfl
@[simp] theorem raiseFault_faultCause (s : State) (c : FaultCause) (w : Word) : (s.raiseFault c w).faultCause = c := rfl
@[simp] theorem raiseFault_faultInfo (s : State) (c : FaultCause) (w : Word) : (s.raiseFault c w).faultInfo = w := rfl
@[simp] theorem raiseFault_readReg (s : State) (c : FaultCause) (w : Word) (i : Nibble) : (s.raiseFault c w).readReg i = s.readReg i := rfl
@[simp] theorem raiseFault_cell (s : State) (c : FaultCause) (w : Word) (j : Fin 16) : (s.raiseFault c w).cell j = s.cell j := rfl

end Sys2Proof.Machine
end

