-- ==== Sys2Proof/Laws/Ops.lean ====
section
/-! SUPPORT. What each shared operation of the machine can do, said once. -/

namespace Sys2Proof.Machine

/-! The adder -/

theorem aluSum_toNat (a b : Byte) : (aluSum a b).toNat = (a.toNat + b.toNat) % 256 := by
  simp [aluSum]

/-- The carry stands for the 256 that the sum has lost. -/
theorem aluCarry_toNat (a b : Byte) : (aluCarry a b).toNat = if a.toNat + b.toNat ≥ 256 then 1 else 0 := by
  unfold aluCarry; split <;> rfl

/-! The stack -/

theorem stackFull_iff (s : State) : s.stackFull = true ↔ s.sp.val = 16 := by
  have := s.sp.isLt
  simp only [State.stackFull, Config.stackDepth, decide_eq_true_eq]
  omega

theorem stackEmpty_iff (s : State) : s.stackEmpty = true ↔ s.sp.val = 0 := by
  simp [State.stackEmpty]

/-- A push into a stack that is not full. -/
theorem push_of_lt {s : State} (v : Word) (h : s.sp.val < 16) :
    s.push v = some { s with stack := s.stack.set s.sp.val v h, sp := ⟨s.sp.val + 1, Nat.succ_lt_succ h⟩ } :=
  dif_neg fun hf => Nat.ne_of_lt h ((stackFull_iff s).mp hf)

/-- A push into a full stack is refused. -/
theorem push_of_full {s : State} (v : Word) (h : s.sp.val = 16) : s.push v = none :=
  dif_pos ((stackFull_iff s).mpr h)

/-- A pushed cell holds the value; the other cells are as they were. -/
theorem push_cell {s t : State} {v : Word} (e : s.push v = some t) (j : Fin 16) :
    t.cell j = if j.val = s.sp.val then v else s.cell j := by
  unfold State.push at e
  split at e
  · cases e
  · cases e
    by_cases h : j.val = s.sp.val
    · simp [State.cell, h]
    · have : s.sp.val ≠ j.val := fun e => h e.symm
      simp [State.cell, h, Vector.getElem_set_ne, this]

/-- A pop from a stack that is not empty; `j` is the cell that is popped. -/
theorem pop_of_succ {s : State} {j : Fin 16} (h : s.sp.val = j.val + 1) :
    s.pop = some (s.cell j, { s with sp := ⟨j.val, by omega⟩ }) := by
  have he : ¬ s.stackEmpty = true := fun hf => by rw [stackEmpty_iff] at hf; omega
  unfold State.pop
  rw [dif_neg he]
  simp [h]

/-- A pop from an empty stack is refused. -/
theorem pop_of_empty {s : State} (h : s.sp.val = 0) : s.pop = none := dif_pos ((stackEmpty_iff s).mpr h)

/-! The fetch -/

theorem fetchFault_iff (pc : Word) : fetchFault pc = true ↔ 4095 ≤ pc.toNat := by
  simp only [fetchFault, Config.memSize, decide_eq_true_eq]
  omega

/-- The fetch of a `pc` up to 4094 gives the big-endian word there. -/
theorem fetch_of_le {s : State} (h : s.pc.toNat ≤ 4094) :
    s.fetch = some (opcodeOf (s.mem.get s.pc.toNat) (s.mem.get (s.pc.toNat + 1))) := by
  have hf : ¬ fetchFault s.pc = true := by rw [fetchFault_iff]; omega
  have h0 : s.pc.toNat < Config.memSize := by simp only [Config.memSize]; omega
  have h1 : s.pc.toNat + 1 < Config.memSize := by simp only [Config.memSize]; omega
  simp [State.fetch, hf, Memory.read_of_lt h0, Memory.read_of_lt h1]

/-- There is no fetch of a `pc` from 4095 on. -/
theorem fetch_of_ge {s : State} (h : 4095 ≤ s.pc.toNat) : s.fetch = none := by
  simp [State.fetch, (fetchFault_iff s.pc).mpr h]

/-- The fetch succeeds exactly for `pc <= 4094`, and gives the big-endian word there. -/
theorem fetch_eq_some_iff {s : State} {op : Word} :
    s.fetch = some op ↔
      s.pc.toNat ≤ 4094 ∧ op = opcodeOf (s.mem.get s.pc.toNat) (s.mem.get (s.pc.toNat + 1)) := by
  rcases Nat.lt_or_ge 4094 s.pc.toNat with h | h
  · rw [fetch_of_ge h]
    constructor
    · intro e; cases e
    · intro e; omega
  · rw [fetch_of_le h]
    constructor
    · intro e; exact ⟨h, (Option.some.inj e).symm⟩
    · intro e; rw [e.2]

/-- After a successful fetch the advance does not wrap (R68). -/
theorem advance_toNat {pc : Word} (h : pc.toNat ≤ 4094) : (nextPc pc .advance).toNat = pc.toNat + 2 := by
  simp only [nextPc_advance, BitVec.toNat_add, BitVec.toNat_ofNat]
  omega

/-! Placing a word -/

@[simp] theorem withOpcode_regs (s : State) (op : Word) : (s.withOpcode op).regs = s.regs := rfl
@[simp] theorem withOpcode_pc (s : State) (op : Word) : (s.withOpcode op).pc = s.placeAt := rfl
@[simp] theorem withOpcode_stack (s : State) (op : Word) : (s.withOpcode op).stack = s.stack := rfl
@[simp] theorem withOpcode_sp (s : State) (op : Word) : (s.withOpcode op).sp = s.sp := rfl
@[simp] theorem withOpcode_runState (s : State) (op : Word) : (s.withOpcode op).runState = .running := rfl
@[simp] theorem withOpcode_faultCause (s : State) (op : Word) : (s.withOpcode op).faultCause = s.faultCause := rfl
@[simp] theorem withOpcode_faultInfo (s : State) (op : Word) : (s.withOpcode op).faultInfo = s.faultInfo := rfl

theorem placeAt_le (s : State) : s.placeAt.toNat ≤ 4094 := by
  unfold State.placeAt
  split
  · simp [Config.resetPc]
  · next h => rw [fetchFault_iff] at h; omega

/-- The word placed is the word fetched next. -/
theorem fetch_withOpcode {s : State} (op : Word) (h : s.mem.wf = true) : (s.withOpcode op).fetch = some op := by
  have hp := placeAt_le s
  have h0 : s.placeAt.toNat < Config.memSize := by simp only [Config.memSize]; omega
  rw [fetch_eq_some_iff]
  refine ⟨hp, ?_⟩
  show op = opcodeOf (((s.mem.set s.placeAt.toNat _).set (s.placeAt.toNat + 1) _).get s.placeAt.toNat)
    (((s.mem.set s.placeAt.toNat _).set (s.placeAt.toNat + 1) _).get (s.placeAt.toNat + 1))
  have hne : s.placeAt.toNat ≠ s.placeAt.toNat + 1 := by omega
  rw [Memory.get_set_self _ _ (Memory.wf_set _ h0 h), Memory.get_set_ne _ hne, Memory.get_set_self _ _ h, opcodeOf_bytes]

end Sys2Proof.Machine
end

