-- ==== Sys2Proof/Laws/PerInstr.lean ====
section
/-! SUPPORT. Statements made of every instruction, one lemma per constructor. -/

namespace Sys2Proof.Laws.RowOfEncoding

/-- The word of an instruction lies in its row of the opcode map (R55), and that row is in the map. -/
def Statement (i : Instr) : Prop := i.row.covers (encode i) = true ∧ i.row ∈ opcodeMap

theorem halt : Statement .halt := ⟨by decide, by decide⟩

theorem addXy (x y : Nibble) : Statement (.addXy x y) := by
  refine ⟨?_, by simp [Instr.row, opcodeMap]⟩
  revert x y
  decide

theorem call (nnn : Addr) : Statement (.call nnn) := by
  refine ⟨?_, by simp [Instr.row, opcodeMap]⟩
  revert nnn
  decide +kernel

theorem ret : Statement .ret := ⟨by decide, by decide⟩

end Sys2Proof.Laws.RowOfEncoding
end

