-- ==== Sys2Proof/Laws/Step.lean ====
section
/-! SUPPORT. What each meaning, a step of the core and a move of the host can do, said once. -/

namespace Sys2Proof.Machine

/-! The meanings -/

theorem execHalt_eq (s : State) : execHalt s = .next s.haltRun := rfl

theorem execAddXy_eq (x y : Nibble) (s : State) :
    execAddXy x y s =
      .next ((s.writeReg x (aluSum (s.readReg x) (s.readReg y))).writeFlag (aluCarry (s.readReg x) (s.readReg y))) := rfl

/-- What `ADD_XY` leaves in a register (R75): the carry in `x[15]`, whatever `X` is; the sum in `x[X]` otherwise. -/
theorem execAddXy_readReg {x y : Nibble} {s t : State} (e : execAddXy x y s = .next t) (i : Nibble) :
    t.readReg i =
      if i = Config.flagReg then (aluCarry (s.readReg x) (s.readReg y)).setWidth 8
      else if i = x then aluSum (s.readReg x) (s.readReg y) else s.readReg i := by
  cases e
  by_cases h15 : i = Config.flagReg
  · subst h15; simp [State.writeFlag]
  · rw [if_neg h15, State.writeFlag, readReg_writeReg_ne _ _ h15]
    by_cases hx : i = x
    · subst hx; simp
    · rw [if_neg hx, readReg_writeReg_ne _ _ hx]

theorem execCall_of_lt {s : State} (nnn : Addr) (h : s.sp.val < 16) :
    execCall nnn s =
      .next { s with
        stack := s.stack.set s.sp.val s.pc h
        sp := ⟨s.sp.val + 1, Nat.succ_lt_succ h⟩
        pc := nnn.setWidth 16 } := by
  unfold execCall
  rw [push_of_lt s.pc h]
  rfl

theorem execCall_of_full {s : State} (nnn : Addr) (h : s.sp.val = 16) :
    execCall nnn s = .next (s.raiseFault .stackOverflow (encode (.call nnn))) := by
  unfold execCall
  rw [push_of_full s.pc h]

/-- `RETURN` from a stack that is not empty; `j` is the cell that is popped. -/
theorem execRet_of_succ {s : State} {j : Fin 16} (h : s.sp.val = j.val + 1) :
    execRet s = .next { s with sp := ⟨j.val, by omega⟩, pc := s.cell j } := by
  unfold execRet
  rw [pop_of_succ h]
  rfl

theorem execRet_of_empty {s : State} (h : s.sp.val = 0) :
    execRet s = .next (s.raiseFault .stackUnderflow (encode .ret)) := by
  unfold execRet
  rw [pop_of_empty h]

/-- All that an instruction can do: halt; add; push and jump, or overflow; pop, or underflow. -/
theorem exec_cases {i : Instr} {s t : State} (e : exec i s = .next t) :
    (i = .halt ∧ t = s.haltRun) ∨
    (∃ x y, i = .addXy x y ∧
      t = (s.writeReg x (aluSum (s.readReg x) (s.readReg y))).writeFlag (aluCarry (s.readReg x) (s.readReg y))) ∨
    (∃ nnn, i = .call nnn ∧ ∃ h : s.sp.val < 16, t =
      { s with
        stack := s.stack.set s.sp.val s.pc h
        sp := ⟨s.sp.val + 1, Nat.succ_lt_succ h⟩
        pc := nnn.setWidth 16 }) ∨
    (∃ nnn, i = .call nnn ∧ s.sp.val = 16 ∧ t = s.raiseFault .stackOverflow (encode (.call nnn))) ∨
    (i = .ret ∧ ∃ j : Fin 16, s.sp.val = j.val + 1 ∧ t = { s with sp := ⟨j.val, by omega⟩, pc := s.cell j }) ∨
    (i = .ret ∧ s.sp.val = 0 ∧ t = s.raiseFault .stackUnderflow (encode .ret)) := by
  have hsp := s.sp.isLt
  cases i with
  | halt => cases e; exact .inl ⟨rfl, rfl⟩
  | addXy x y => cases e; exact .inr (.inl ⟨x, y, rfl, rfl⟩)
  | call nnn =>
    change execCall nnn s = _ at e
    by_cases h : s.sp.val < 16
    · rw [execCall_of_lt nnn h] at e
      cases e
      exact .inr (.inr (.inl ⟨nnn, rfl, h, rfl⟩))
    · have h : s.sp.val = 16 := by omega
      rw [execCall_of_full nnn h] at e
      cases e
      exact .inr (.inr (.inr (.inl ⟨nnn, rfl, h, rfl⟩)))
  | ret =>
    change execRet s = _ at e
    by_cases h : 0 < s.sp.val
    · have hj : s.sp.val = (⟨s.sp.val - 1, by omega⟩ : Fin 16).val + 1 := by simp only []; omega
      rw [execRet_of_succ hj] at e
      cases e
      exact .inr (.inr (.inr (.inr (.inl ⟨rfl, _, hj, rfl⟩))))
    · have h : s.sp.val = 0 := by omega
      rw [execRet_of_empty h] at e
      cases e
      exact .inr (.inr (.inr (.inr (.inr ⟨rfl, h, rfl⟩))))

/-! The step -/

theorem isRunning_iff (s : State) : s.isRunning = true ↔ s.runState = .running := by
  simp [State.isRunning]

/-- Outside `RUNNING` the step changes nothing. -/
theorem step_of_not_running {s : State} (h : s.runState ≠ .running) : step s = .next s := by
  simp [step, State.isRunning, h]

theorem step_of_fetch_none {s : State} (h : s.runState = .running) (hf : s.fetch = none) :
    step s = .next (s.raiseFault .fetchOutOfBounds s.pc) := by
  simp [step, State.isRunning, h, hf, fetchPastEnd]

theorem step_of_fetch_some {s : State} {op : Word} (h : s.runState = .running) (hf : s.fetch = some op) :
    step s = runOpcode op s := by
  simp [step, State.isRunning, h, hf]

theorem runOpcode_of_some {op : Word} {i : Instr} (s : State) (h : decodeWord op = some i) :
    runOpcode op s = exec i (s.movePc .advance) := by
  simp [runOpcode, h]

theorem runOpcode_of_none {op : Word} (s : State) (h : decodeWord op = none) :
    runOpcode op s = .next ((s.movePc .advance).raiseFault .unimplementedOpcode op) := by
  simp [runOpcode, h, execUnimplemented]

/-- All that a step can do: nothing outside `RUNNING`; the out-of-bounds fault; one of the four instructions; the
unimplemented-opcode fault. -/
theorem step_cases {s t : State} (e : step s = .next t) :
    (s.runState ≠ .running ∧ t = s) ∨
    (s.runState = .running ∧ 4095 ≤ s.pc.toNat ∧ t = s.raiseFault .fetchOutOfBounds s.pc) ∨
    (s.runState = .running ∧ s.pc.toNat ≤ 4094 ∧ ∃ op, s.fetch = some op ∧
      ((∃ i, decodeWord op = some i ∧ exec i (s.movePc .advance) = .next t) ∨
        (decodeWord op = none ∧ t = (s.movePc .advance).raiseFault .unimplementedOpcode op))) := by
  by_cases h : s.runState = .running
  · rcases Nat.lt_or_ge 4094 s.pc.toNat with hp | hp
    · rw [step_of_fetch_none h (fetch_of_ge hp)] at e
      exact .inr (.inl ⟨h, hp, by cases e; rfl⟩)
    · have hf := fetch_of_le hp
      rw [step_of_fetch_some h hf] at e
      refine .inr (.inr ⟨h, hp, _, hf, ?_⟩)
      cases hd : decodeWord (opcodeOf (s.mem.get s.pc.toNat) (s.mem.get (s.pc.toNat + 1))) with
      | some i => exact .inl ⟨i, rfl, by rwa [runOpcode_of_some s hd] at e⟩
      | none => rw [runOpcode_of_none s hd] at e; exact .inr ⟨rfl, by cases e; rfl⟩
  · rw [step_of_not_running h] at e
    exact .inl ⟨h, by cases e; rfl⟩

/-- The instruction placed by `withFetchWord` is the one the next step runs. -/
theorem step_withFetchWord {s : State} {nbits w : Nat} {i : Instr} (h : s.mem.wf = true)
    (hi : decodeTableWord nbits w = some i) :
    step (s.withFetchWord nbits w) = exec i ((s.withFetchWord nbits w).movePc .advance) := by
  rw [decodeTableWord_eq] at hi
  unfold State.withFetchWord
  rw [step_of_fetch_some rfl (fetch_withOpcode _ h), runOpcode_of_some _ hi]

/-! The moves of the host -/

/-- A host write of memory in `IDLE`, inside the address space. -/
theorem hostWriteMem_of_idle {s : State} {a : Nat} (v : Byte) (h : s.runState = .idle) (ha : a < 4096) :
    hostWriteMem a v s = .next { s with mem := s.mem.set a v } := by
  have ha' : a < Config.memSize := ha
  simp [hostWriteMem, h, Memory.write, ha']

/-- Outside `IDLE` every move of the host but reset changes nothing. -/
theorem hostMove_of_not_idle {s : State} {c : HostCommand} (h : s.runState ≠ .idle) (hc : c ≠ .reset) :
    hostMove c s = .next s := by
  cases c with
  | reset => exact absurd rfl hc
  | _ => simp [hostMove, hostWriteMem, hostWriteReg, hostRun, h]

end Sys2Proof.Machine
end

