-- ==== Sys2Proof/Tests/Slice0.lean ====
section
/-! SUPPORT. Tests of single steps against the tables of 95_test_vectors.md, the ill-formed terms that WellFormed refuses,
and for each obligation with hypotheses a witness that meets them. -/

namespace Sys2Proof.Tests

open Sys2Proof Sys2Proof.Machine

/-- A running core with a word at `pc` and nothing else in memory. -/
def coreAt (pc : Word) (sp : Fin 17) (op : Word) : State :=
  { State.reset with
    pc := pc, sp := sp, runState := .running
    mem := (Memory.set [] pc.toNat (highByte op)).set (pc.toNat + 1) (lowByte op) }

/-- The same with two registers loaded. -/
def addAt (op : Word) (i : Nibble) (a : Byte) (j : Nibble) (b : Byte) : State :=
  ((coreAt 0 0 op).writeReg i a).writeReg j b

/-- A core that has halted at address 0. -/
def haltedCore : State := { State.reset with pc := 2, runState := .halted }

/-- A core that has met the word 0x1200 at address 0. -/
def faultedCore : State :=
  { coreAt 2 0 0 with
    mem := [(0, 0x12#8)], runState := .faulted, faultCause := .unimplementedOpcode, faultInfo := 0x1200#16 }

/-- Whether an outcome is a next state with a property. -/
def nextHas (o : Host.Outcome State Fault Refusal) (p : State → Bool) : Bool :=
  match o with
  | .next t => p t
  | _ => false

/-! ## WellFormed: each check refuses an ill-formed term -/

theorem test_wellFormed_refuses_first_register : (Source.addXy 16 0).wellFormed = false := by decide
theorem test_wellFormed_refuses_second_register : (Source.addXy 0 16).wellFormed = false := by decide
theorem test_wellFormed_refuses_target : (Source.call 0x1000).wellFormed = false := by decide
theorem test_wellFormed_admits_the_limits :
    ((Source.addXy 15 15).wellFormed && (Source.call 0xFFF).wellFormed) = true := by decide

/-! ## Decoding: words written out bit by bit from R55, R64 and table V2 -/

theorem test_decode_halt : decodeWord 0b0000000000000000#16 = some .halt := by decide
theorem test_decode_addXy : decodeWord 0b1000101010110100#16 = some (.addXy 10 11) := by decide
theorem test_decode_call : decodeWord 0b0010111111111110#16 = some (.call 0xFFE) := by decide
theorem test_decode_ret : decodeWord 0b0000000011101110#16 = some .ret := by decide
theorem test_decode_class_8_needs_4 : decodeWord 0x8015#16 = none := by decide
theorem test_decode_ret_needs_x_0 : decodeWord 0x01EE#16 = none := by decide
theorem test_decode_call_wins_over_d : decodeWord 0x2004#16 = some (.call 0x004) := by decide
theorem test_assemble_add : (Source.addXy 0 3).assemble = some 0x8034#16 := by decide
theorem test_decodeTableWord_call : decodeTableWord 16 0x2100 = some (.call 0x100) := by decide

/-! ## Single steps: tables V1 and V3 to V8 -/

theorem test_add_wraps : nextHas (step (addAt 0x8014 0 200 1 100))
    (fun t => t.readReg 0 == 44 && t.readReg 1 == 100 && t.readReg 15 == 1 && t.pc == 2) = true := by decide
theorem test_add_with_register_15 :
    (nextHas (step (addAt 0x8F14 15 250 1 10)) (fun t => t.readReg 15 == 1) &&
      nextHas (step (addAt 0x81F4 1 3 15 7)) (fun t => t.readReg 1 == 10 && t.readReg 15 == 0)) = true := by decide
theorem test_call_at_top_of_memory : nextHas (step (coreAt 0xFFE 3 0x2000))
    (fun t => t.cell 3 == 0x1000 && t.sp == 4 && t.pc == 0) = true := by decide
theorem test_call_overflow : nextHas (step (coreAt 0x050 16 0x2300))
    (fun t => t.faultCause.code == 1 && t.faultInfo == 0x2300 && t.pc == 0x052 && t.sp == 16 && t.cell 15 == 0) = true := by
  decide
theorem test_ret_pops_and_keeps_the_cell : nextHas (step { coreAt 0x104 1 0x00EE with stack := State.reset.stack.set 0 0x0002 })
    (fun t => t.sp == 0 && t.pc == 0x0002 && t.cell 0 == 0x0002) = true := by decide
theorem test_ret_underflow : nextHas (step (coreAt 0 0 0x00EE))
    (fun t => t.faultCause.code == 2 && t.faultInfo == 0x00EE && t.pc == 2 && t.sp == 0) = true := by decide
theorem test_halt_at_top_of_memory : nextHas (step (coreAt 0xFFE 0 0x0000))
    (fun t => t.pc == 0x1000 && t.runState == .halted && t.faultCause == .noFault) = true := by decide
theorem test_halt_keeps_pending_calls : nextHas (step (coreAt 0x100 1 0x0000)) (fun t => t.sp == 1 && t.pc == 0x102) = true := by
  decide
theorem test_unimplemented_at_top_of_memory : nextHas (step (coreAt 0xFFE 0 0xFFFF))
    (fun t => t.faultCause.code == 3 && t.faultInfo == 0xFFFF && t.pc == 0x1000) = true := by decide
theorem test_fetch_out_of_bounds : nextHas (step (coreAt 0xFFF 0 0x8014))
    (fun t => t.faultCause.code == 4 && t.faultInfo == 0x0FFF && t.pc == 0x0FFF) = true := by decide
theorem test_fetch_at_odd_pc : nextHas (step (coreAt 0x005 0 0x8014)) (fun t => t.pc == 0x007 && t.runState == .running) = true := by
  decide
theorem test_host_write_ignored_when_halted : nextHas (hostMove (.writeMem 0 1) haltedCore) (fun t => t == haltedCore) = true := by
  decide
theorem test_host_write_outside_memory : hostMove (.writeMem 4096 1) State.reset = .fault (.noSuchAddress 4096) := rfl
theorem test_host_read_outside_memory : hostRead (.mem 4096) State.reset = .fault (.noSuchAddress 4096) := rfl
theorem test_withFetchWord_runs_first : nextHas (step (State.reset.withFetchWord 16 0x2100))
    (fun t => t.pc == 0x100 && t.sp == 1 && t.cell 0 == 0x0002) = true := by decide

/-! ## Witnesses: a concrete state and operands that meet the hypotheses of each obligation -/

theorem haltedCore_inv : haltedCore.Inv where
  memory := by decide
  pcRange := by decide
  stack := fun i => .inr ⟨Nat.zero_le _, by revert i; decide⟩
  status := ⟨by decide, fun _ => rfl⟩
  idle := fun h => by cases h
  halted := fun _ => by decide
  faultRecord := trivial

theorem runningCore_inv : (coreAt 0 0 0x8014).Inv where
  memory := by decide
  pcRange := by decide
  stack := fun i => .inr ⟨Nat.zero_le _, by revert i; decide⟩
  status := ⟨by decide, fun _ => rfl⟩
  idle := fun h => by cases h
  halted := fun h => by cases h
  faultRecord := trivial

theorem witness_ResetLeavesEveryPieceAtItsValue : (4095 : Nat) < 4096 := by decide

theorem witness_ResetIsTheOnlyWayOut :
    haltedCore.runState = .halted ∧ nextHas (step haltedCore) (fun _ => true) = true ∧ faultedCore.runState = .faulted ∧ HostCommand.run ≠ .reset ∧
      (coreAt 0 0 0).runState = .running := by decide

theorem witness_HostLoadsMemoryAndRegistersInIdle :
    State.reset.runState = .idle ∧ State.reset.mem.wf = true ∧ 4095 < 4096 ∧ (0 : Nat) ≠ 4095 ∧
      (14#4 ≠ 15#4) ∧ haltedCore.runState ≠ .idle ∧ (coreAt 0 0 0).runState ≠ .idle ∧
      HostCommand.writeReg 15 255 ≠ .reset ∧ HostCommand.writeReg 15 255 ≠ .run := by decide

theorem witness_HostLoadsMemoryAndRegistersInIdle_moves :
    Reachable State.reset ∧ (∃ t, hostMove .run State.reset = .next t) ∧
      ∃ t, hostMove (.writeReg 15 255) State.reset = .next t :=
  ⟨.reset, ⟨_, rfl⟩, _, rfl⟩

theorem witness_RunCommandStartsTheCoreFromIdle :
    State.reset.runState = .idle ∧ haltedCore.runState ≠ .idle ∧ (coreAt 0 0 0).runState = .running ∧
      nextHas (step (coreAt 0 0 0)) (fun _ => true) = true := by decide

theorem witness_HostHasNoAccessWhileRunning :
    (coreAt 0 0 0).runState = .running ∧ HostCommand.run ≠ .reset ∧ HostProbe.pc ≠ .runState := by decide

theorem witness_HostInspectsAStoppedCore :
    faultedCore.runState ≠ .running ∧ faultedCore.mem.read 0 = some 0x12 ∧ faultedCore.mem.read 4095 = some 0 := by decide

theorem witness_FieldsOfEveryWord : (coreAt 4094 0 0x8AB4).fetch = some 0x8AB4#16 := by decide

theorem witness_DecodeOfEncodedInstruction :
    (Instr.addXy 15 15).wellFormed = true ∧ (Instr.call 0xFFF).wellFormed = true := by decide

theorem witness_EncodeOfDecodedWord :
    decodeWord 0x8FF4 = some (.addXy 15 15) ∧ decodeWord 0x2FFF = some (.call 0xFFF) := by decide

theorem witness_SourceAssemblesExactlyInRange :
    (Source.addXy 15 15).wellFormed = true ∧ (Source.call 4095).wellFormed = true ∧ (16 ≤ 16 ∨ 16 ≤ 0) ∧ 4096 ≤ 4096 := by
  decide

theorem witness_FetchReadsTheBigEndianWord :
    (coreAt 4094 0 0x8014).pc.toNat ≤ 4094 ∧ 4095 ≤ (coreAt 4095 0 0).pc.toNat ∧
      (coreAt 4095 0 0).runState = .running := by decide

theorem witness_FetchOutOfBoundsExactlyFrom4095 :
    (coreAt 4095 0 0).runState = .running ∧ (coreAt 4095 0 0).faultCause = .noFault ∧
      4095 ≤ (coreAt 4095 0 0).pc.toNat ∧ nextHas (step (coreAt 4095 0 0)) (fun _ => true) = true ∧
      nextHas (step (coreAt 4094 0 0)) (fun _ => true) = true := by decide

theorem witness_OddProgramCounterIsFetchedAndComesFromAnOddCall :
    (coreAt 4093 0 0).pc.toNat % 2 = 1 ∧ (coreAt 4093 0 0).pc.toNat ≤ 4094 ∧
      (coreAt 4094 16 0x00EE).pc.toNat % 2 = 0 ∧
      (∀ j : Fin 16, j.val < (coreAt 4094 16 0x00EE).sp.val → ((coreAt 4094 16 0x00EE).cell j).toNat % 2 = 0) ∧
      nextHas (step (coreAt 4094 16 0x00EE)) (fun _ => true) = true := by decide

theorem witness_StepRunsTheDecodedInstruction :
    (coreAt 4094 0 0x8014).runState = .running ∧ (coreAt 4094 0 0x8014).mem.read 4094 = some 0x80 ∧
      (coreAt 4094 0 0x8014).mem.read 4095 = some 0x14 ∧ (Instr.addXy 0 1).wellFormed = true := by decide

theorem witness_StepRunsTheDecodedInstruction_decode : decode [0x80, 0x14] = .ok (.addXy 0 1, []) := rfl

theorem witness_CoreStepsOnlyWhileRunning :
    State.reset.runState ≠ .running ∧ nextHas (step State.reset) (fun _ => true) = true ∧
      nextHas (step (coreAt 0 0 0x8014)) (fun t => t.runState == .running) = true ∧
      nextHas (hostMove .run State.reset) (fun t => t.runState == .running) = true := by decide

/-- One state for each clause: no fetch; `HALT`; `ADD_XY`; `CALL` with 15 and with 16 pending; `RETURN` with 16, 1 and 0
pending; no instruction. -/
theorem witness_ProgramCounterAfterEachStep :
    (coreAt 4095 0 0).fetch = none ∧ (coreAt 0 0 0).fetch = some 0 ∧
      (coreAt 0 0 0x8FF4).fetch = some 0x8FF4 ∧ (coreAt 4094 15 0x2FFF).fetch = some 0x2FFF ∧
      (coreAt 4094 16 0x2FFF).fetch = some 0x2FFF ∧ (coreAt 0 16 0x00EE).fetch = some 0x00EE ∧
      (coreAt 0 16 0x00EE).sp.val = (15 : Fin 16).val + 1 ∧ (coreAt 0 1 0x00EE).sp.val = (0 : Fin 16).val + 1 ∧
      (coreAt 0 0 0x00EE).sp.val = 0 ∧ (coreAt 0 0 0x1200).fetch = some 0x1200 ∧ decodeWord 0x1200 = none ∧
      nextHas (step (coreAt 4095 0 0)) (fun _ => true) = true ∧
      nextHas (step (coreAt 4094 15 0x2FFF)) (fun _ => true) = true := by decide

theorem witness_RunStateAfterEachStep :
    (coreAt 0 0 0).runState = .running ∧
      nextHas (step (coreAt 0 0 0)) (fun t => t.runState == .halted) = true ∧
      nextHas (step (coreAt 0 0 0x00EE)) (fun t => t.runState == .faulted) = true ∧
      nextHas (step (coreAt 0 0 0x8014)) (fun t => t.runState == .running) = true := by decide

theorem witness_RunStateTransitions :
    nextHas (step haltedCore) (fun t => t == haltedCore) = true ∧ haltedCore.runState ≠ .running ∧
      nextHas (step (coreAt 0 0 0x8014)) (fun _ => true) = true ∧ (coreAt 0 0 0x8014).runState = .running ∧
      nextHas (hostMove .run State.reset) (fun _ => true) = true ∧
      nextHas (hostMove .run haltedCore) (fun t => t == haltedCore) = true := by decide

theorem witness_HaltStopsTheRun :
    (coreAt 4094 0 0).runState = .running ∧ (coreAt 4094 0 0).fetch = some 0x0000#16 ∧ haltedCore.runState = .halted ∧
      nextHas (step (coreAt 4094 0 0)) (fun t => t.runState == .halted) = true ∧ State.reset.runState ≠ .halted ∧
      nextHas (hostMove .run State.reset) (fun _ => true) = true ∧ nextHas (step haltedCore) (fun _ => true) = true ∧
      HostCommand.run ≠ .reset := by decide

theorem witness_HaltStopsTheRun_inv : haltedCore.Inv ∧ haltedCore.runState = .halted := ⟨haltedCore_inv, rfl⟩

theorem witness_AddXyAddsAndWritesTheCarry :
    (coreAt 4094 0 0x8E04).runState = .running ∧ (coreAt 4094 0 0x8E04).fetch = some 0x8E04 ∧
      decodeWord 0x8E04 = some (.addXy 14 0) ∧ 14#4 ≠ 15#4 ∧ 0#4 ≠ 14#4 ∧ 0#4 ≠ 15#4 := by decide

theorem witness_AdderGivesTheExactNineBitSum :
    (14#4 ≠ 15#4) ∧ nextHas (exec (.addXy 14 14) State.reset) (fun _ => true) = true ∧
      nextHas (exec (.addXy 14 14) (State.reset.writeReg 15 1)) (fun _ => true) = true := by decide

theorem witness_CallPushesAndJumps :
    (coreAt 4094 15 0x2FFF).runState = .running ∧ (coreAt 4094 15 0x2FFF).fetch = some 0x2FFF ∧
      decodeWord 0x2FFF = some (.call 0xFFF) ∧ (coreAt 4094 15 0x2FFF).sp.val < 16 ∧
      (coreAt 4094 16 0x2FFF).sp.val = 16 ∧
      nextHas (exec (.call 0xFFF) (coreAt 4094 15 0x2FFF)) (fun _ => true) = true := by decide

theorem witness_ReturnPopsIntoPc :
    (coreAt 4094 16 0x00EE).runState = .running ∧ (coreAt 4094 16 0x00EE).fetch = some 0x00EE#16 ∧
      (coreAt 4094 16 0x00EE).sp.val = (15 : Fin 16).val + 1 ∧ (coreAt 4094 1 0x00EE).sp.val = (0 : Fin 16).val + 1 ∧
      (coreAt 4094 0 0x00EE).sp.val = 0 := by decide

theorem witness_UnimplementedWordFaults :
    (coreAt 4094 0 0xFFFF).runState = .running ∧ (coreAt 4094 0 0xFFFF).fetch = some 0xFFFF#16 ∧
      0xFFFF#16 &&& 0xFFFF#16 ≠ 0x0000#16 ∧ 0xFFFF#16 &&& 0xF00F#16 ≠ 0x8004#16 ∧
      0xFFFF#16 &&& 0xF000#16 ≠ 0x2000#16 ∧ 0xFFFF#16 &&& 0xFFFF#16 ≠ 0x00EE#16 := by decide

/-- A `RETURN` with 16 calls pending, the last pushed by a `CALL` at 0. -/
def calledCore : State := { coreAt 0x100 16 0x00EE with stack := State.reset.stack.set 15 0x0002 }

theorem witness_ReturnUndoesCall :
    (coreAt 0 15 0x2100).sp.val < 16 ∧ (coreAt 0 15 0x2100).runState = .running ∧
      (coreAt 0 15 0x2100).fetch = some 0x2100 ∧ decodeWord 0x2100 = some (.call 0x100) ∧
      calledCore.runState = .running ∧ calledCore.fetch = some 0x00EE#16 ∧
      calledCore.sp.val = (coreAt 0 15 0x2100).sp.val + 1 ∧
      nextHas (step (coreAt 0 15 0x2100)) (fun t => calledCore.cell 15 == t.cell 15) = true := by decide

theorem witness_PushAndPopStayInTheStack :
    (coreAt 0 16 0).sp.val = 16 ∧ (coreAt 0 15 0).sp.val < 16 ∧ (coreAt 0 0 0).sp.val = 0 ∧
      (coreAt 0 16 0).sp.val = (15 : Fin 16).val + 1 ∧ (coreAt 0 16 0).push 0 = none ∧ (coreAt 0 0 0).pop = none := by
  decide

theorem witness_StackPointerCountsPendingCalls :
    nextHas (step (coreAt 0 15 0x2100)) (fun t => t.sp == 16) = true ∧ HostCommand.run ≠ .reset ∧
      nextHas (hostMove .run State.reset) (fun _ => true) = true ∧
      (coreAt 0 15 0x2100).fetch = some 0x2100 ∧ decodeWord 0x2100 = some (.call 0x100) ∧
      (coreAt 0 16 0x2100).sp.val = 16 ∧ nextHas (step (coreAt 0 16 0x2100)) (fun _ => true) = true ∧
      (coreAt 0 1 0x00EE).fetch = some 0x00EE#16 ∧ 0 < (coreAt 0 1 0x00EE).sp.val ∧
      nextHas (step (coreAt 0 1 0x00EE)) (fun _ => true) = true ∧ (coreAt 0 0 0x00EE).sp.val = 0 ∧
      nextHas (step (coreAt 0 0 0x00EE)) (fun _ => true) = true := by decide

theorem witness_HaltFrame : ∃ t, exec .halt (coreAt 0 0 0) = .next t := ⟨_, rfl⟩

theorem witness_AddXyFrame : (∃ t, exec (.addXy 14 15) (coreAt 0 0 0x8EF4) = .next t) ∧ 0#4 ≠ 14#4 ∧ 0#4 ≠ 15#4 :=
  ⟨⟨_, rfl⟩, by decide, by decide⟩

theorem witness_CallAndReturnFrame :
    nextHas (exec (.call 0xFFF) (coreAt 0 15 0x2FFF)) (fun _ => true) = true ∧ (coreAt 0 15 0x2FFF).sp.val < 16 ∧
      nextHas (exec (.call 0xFFF) (coreAt 0 16 0x2FFF)) (fun _ => true) = true ∧ (coreAt 0 16 0x2FFF).sp.val = 16 ∧
      nextHas (exec .ret (coreAt 0 1 0x00EE)) (fun _ => true) = true ∧ 0 < (coreAt 0 1 0x00EE).sp.val ∧
      nextHas (exec .ret (coreAt 0 0 0x00EE)) (fun _ => true) = true ∧ (coreAt 0 0 0x00EE).sp.val = 0 := by decide

theorem witness_NoStepWritesMemory : ∃ t, step (coreAt 0 0 0x2100) = .next t := ⟨_, rfl⟩

theorem witness_RegistersNeverSteerTheRun : ∃ t, step (coreAt 0 0 0x8014) = .next t := ⟨_, rfl⟩

theorem witness_FlagIsReplacedByEveryAdd :
    ((addAt 0x8014 0 254 1 1).readReg 0).toNat + ((addAt 0x8014 0 254 1 1).readReg 1).toNat < 256 ∧
      256 ≤ ((addAt 0x8014 0 255 1 1).readReg 0).toNat + ((addAt 0x8014 0 255 1 1).readReg 1).toNat := by decide

/-- A step into each of the four faults, and one into none. -/
theorem witness_FaultCausesAndTheirConditions :
    nextHas (step (coreAt 0 16 0x2000)) (fun t => t.runState == .faulted && t.faultCause == .stackOverflow) = true ∧
      nextHas (step (coreAt 0 0 0x00EE)) (fun t => t.runState == .faulted && t.faultCause == .stackUnderflow) = true ∧
      nextHas (step (coreAt 0 0 0x1200)) (fun t => t.runState == .faulted && t.faultCause == .unimplementedOpcode) = true ∧
      nextHas (step (coreAt 4095 0 0)) (fun t => t.runState == .faulted && t.faultCause == .fetchOutOfBounds) = true ∧
      nextHas (step (coreAt 0 15 0x2000)) (fun t => t.runState == .running) = true ∧
      (coreAt 0 16 0x2000).runState = .running := by decide

theorem witness_FaultsArePrecise :
    (coreAt 4094 0 0x1200).runState = .running ∧ (coreAt 4095 0 0).runState = .running ∧
      nextHas (step (coreAt 4094 0 0x1200)) (fun t => t.runState == .faulted && t.faultCause != .fetchOutOfBounds) = true ∧
      nextHas (step (coreAt 4095 0 0)) (fun t => t.runState == .faulted && t.faultCause == .fetchOutOfBounds) = true := by
  decide

theorem witness_FaultEntryWritesTheStatusRegisters :
    ∃ t, step ((coreAt 0 0 0).raiseFault .stackOverflow 0x2000) = .next t := ⟨_, rfl⟩

theorem witness_FaultedIsTerminal :
    faultedCore.goneWrong ∧ HostCommand.run ≠ .reset ∧ ∃ t, step faultedCore = .next t := ⟨rfl, by decide, _, rfl⟩

theorem witness_StepKeepsTheInvariant : (coreAt 0 0 0x8014).Inv ∧ ∃ t, step (coreAt 0 0 0x8014) = .next t :=
  ⟨runningCore_inv, _, rfl⟩

theorem witness_HostMovesKeepTheInvariant : haltedCore.Inv ∧ ∃ t, hostMove .reset haltedCore = .next t :=
  ⟨haltedCore_inv, _, rfl⟩

theorem witness_ReachableStatesAreLegal : ∃ s, Reachable s ∧ s.runState = .running :=
  ⟨{ State.reset with runState := .running }, .host .run .reset rfl, rfl⟩

theorem witness_EveryRunEnds : (coreAt 0 0 0x2000).runState = .running := rfl

end Sys2Proof.Tests
end

/-! PROOFS. The state (family 10_state): the program counter, `run_state` and the stack. -/

namespace Sys2Proof.Machine

/-! ## The word of `HALT` -/

theorem selectArm_eq_halt_iff (f : Fields) :
    selectArm f = some .halt ↔ f.c = 0x0#4 ∧ f.x = 0x0#4 ∧ f.y = 0x0#4 ∧ f.d = 0x0#4 := by
  unfold selectArm
  split
  · next h => exact iff_of_true rfl h
  · next h => exact iff_of_false (by split_ifs <;> simp) h

/-- R55: `0x0000` is the one word that is `HALT`. -/
theorem decodeWord_eq_halt_iff (op : Word) : decodeWord op = some .halt ↔ op = 0x0000#16 := by
  constructor
  · intro h
    obtain ⟨hc, hx, hy, hd⟩ := (selectArm_eq_halt_iff _).mp h
    have c := fieldsOf_c_toNat op
    have x := fieldsOf_x_toNat op
    have y := fieldsOf_y_toNat op
    have d := fieldsOf_d_toNat op
    rw [hc] at c
    rw [hx] at x
    rw [hy] at y
    rw [hd] at d
    apply BitVec.eq_of_toNat_eq
    simp only [BitVec.toNat_ofNat, Nat.zero_mod] at *
    omega
  · rintro rfl
    decide

/-! ## A step that runs an instruction -/

/-- A running core that fetches an instruction executes it with `pc` advanced (R68, R70). -/
theorem step_of_decodeWord_some {s : State} {op : Word} {i : Instr} (hr : s.runState = .running)
    (hf : s.fetch = some op) (hd : decodeWord op = some i) : step s = exec i (s.movePc .advance) := by
  rw [step_of_fetch_some hr hf, runOpcode_of_some s hd]

/-- A running core that fetches a word that is no instruction faults with `pc` advanced (R68, R85). -/
theorem step_of_decodeWord_none {s : State} {op : Word} (hr : s.runState = .running)
    (hf : s.fetch = some op) (hd : decodeWord op = none) :
    step s = .next ((s.movePc .advance).raiseFault .unimplementedOpcode op) := by
  rw [step_of_fetch_some hr hf, runOpcode_of_none s hd]

/-! ## The program counter each instruction leaves (R17) -/

section ExecPc
variable {s t : State}

theorem exec_halt_pc (e : exec .halt s = .next t) : t.pc = s.pc := by
  cases e; rfl

theorem exec_addXy_pc {x y : Nibble} (e : exec (.addXy x y) s = .next t) : t.pc = s.pc := by
  cases e; rfl

theorem exec_call_pc_of_lt {nnn : Addr} (e : exec (.call nnn) s = .next t) (h : s.sp.val < 16) :
    t.pc = nnn.setWidth 16 := by
  cases (execCall_of_lt nnn h).symm.trans e; rfl

theorem exec_call_pc_of_full {nnn : Addr} (e : exec (.call nnn) s = .next t) (h : s.sp.val = 16) :
    t.pc = s.pc := by
  cases (execCall_of_full nnn h).symm.trans e; rfl

theorem exec_ret_pc_of_succ {j : Fin 16} (e : exec .ret s = .next t) (h : s.sp.val = j.val + 1) :
    t.pc = s.cell j := by
  cases (execRet_of_succ h).symm.trans e; rfl

theorem exec_ret_pc_of_empty (e : exec .ret s = .next t) (h : s.sp.val = 0) : t.pc = s.pc := by
  cases (execRet_of_empty h).symm.trans e; rfl

end ExecPc

/-- Settles O20: the step is `exec` in the advanced state, and each instruction's `pc` is known there. -/
theorem programCounterAfterEachStep : Obligations.ProgramCounterAfterEachStep := by
  intro s t hr e
  refine ⟨fun hf => ?_, fun op hf => ?_⟩
  · cases (step_of_fetch_none hr hf).symm.trans e
    rfl
  · have hexec {i : Instr} (hd : decodeWord op = some i) : exec i (s.movePc .advance) = .next t :=
      (step_of_decodeWord_some hr hf hd).symm.trans e
    refine ⟨fun hd => exec_halt_pc (hexec hd), fun _ _ hd => exec_addXy_pc (hexec hd),
      fun _ hd hlt => exec_call_pc_of_lt (hexec hd) hlt, fun _ hd hfull => exec_call_pc_of_full (hexec hd) hfull,
      fun _ hd hsp => exec_ret_pc_of_succ (s := s.movePc .advance) (hexec hd) hsp,
      fun hd hempty => exec_ret_pc_of_empty (hexec hd) hempty,
      fun hd => ?_, fun _ hd => step_of_decodeWord_some hr hf hd⟩
    cases (step_of_decodeWord_none hr hf hd).symm.trans e
    rfl

/-! ## How `run_state` changes (R25) -/

/-- What an instruction makes of `RUNNING`: `HALT` halts; another instruction faults with a cause, or the core runs on. -/
theorem exec_runState_of_running {i : Instr} {s t : State} (hr : s.runState = .running) (e : exec i s = .next t) :
    (t.runState = .halted ∧ i = .halt) ∨ (t.runState = .faulted ∧ t.faultCause ≠ .noFault) ∨
      (t.runState = .running ∧ i ≠ .halt) := by
  rcases exec_cases e with ⟨rfl, rfl⟩ | ⟨x, y, rfl, rfl⟩ | ⟨nnn, rfl, h, rfl⟩ | ⟨nnn, rfl, h, rfl⟩ |
    ⟨rfl, j, h, rfl⟩ | ⟨rfl, h, rfl⟩
  · exact .inl ⟨rfl, rfl⟩
  · exact .inr (.inr ⟨hr, by simp⟩)
  · exact .inr (.inr ⟨hr, by simp⟩)
  · exact .inr (.inl ⟨rfl, by simp⟩)
  · exact .inr (.inr ⟨hr, by simp⟩)
  · exact .inr (.inl ⟨rfl, by simp⟩)

/-- What a step makes of `RUNNING`: `HALTED` by the word `0x0000`, `FAULTED` with a cause, or `RUNNING` as before. -/
theorem step_runState_of_running {s t : State} (hr : s.runState = .running) (e : step s = .next t) :
    (t.runState = .halted ∧ s.fetch = some 0x0000#16) ∨
      (t.runState = .faulted ∧ t.faultCause ≠ .noFault) ∨
      (t.runState = .running ∧ s.fetch ≠ some 0x0000#16) := by
  rcases step_cases e with ⟨hn, -⟩ | ⟨-, -, rfl⟩ | ⟨-, -, op, hf, ⟨i, hd, ei⟩ | ⟨-, rfl⟩⟩
  · exact absurd hr hn
  · exact .inr (.inl ⟨rfl, by simp⟩)
  · have hhalt : i = .halt ↔ s.fetch = some 0x0000#16 := by
      rw [hf, Option.some_inj, ← decodeWord_eq_halt_iff, hd, Option.some_inj]
    simpa only [ne_eq, hhalt] using exec_runState_of_running (s := s.movePc .advance) hr ei
  · exact .inr (.inl ⟨rfl, by simp⟩)

/-- A move of the host other than reset and `run` leaves `run_state`. -/
theorem hostMove_runState_of_write {s t : State} {c : HostCommand} (hreset : c ≠ .reset) (hrun : c ≠ .run)
    (e : hostMove c s = .next t) : t.runState = s.runState := by
  cases c with
  | reset => exact absurd rfl hreset
  | run => exact absurd rfl hrun
  | writeMem a v =>
    simp only [hostMove, hostWriteMem] at e
    split_ifs at e
    · split at e <;> cases e
      rfl
    · cases e; rfl
  | writeReg i v =>
    simp only [hostMove, hostWriteReg] at e
    split_ifs at e <;> cases e <;> rfl

/-- The `run` command in `IDLE` (R108). -/
theorem hostMove_run_of_idle {s : State} (h : s.runState = .idle) :
    hostMove .run s = .next { s with runState := .running } := if_pos h

/-- Settles O22, from what a step makes of `RUNNING` and what each move of the host makes of `run_state`. -/
theorem runStateTransitions : Obligations.RunStateTransitions := by
  refine ⟨rfl, rfl, rfl, rfl, fun s t e => ⟨fun hn => ?_, fun hr => step_runState_of_running hr e⟩,
    fun s t c e => ⟨?_, ?_, fun hreset hkeep => ?_⟩⟩
  · cases (step_of_not_running hn).symm.trans e
    rfl
  · rintro rfl
    cases e
    rfl
  · rintro rfl hidle
    cases (hostMove_run_of_idle hidle).symm.trans e
    rfl
  · rcases hkeep with hrun | hidle
    · exact hostMove_runState_of_write hreset hrun e
    · cases (hostMove_of_not_idle hidle hreset).symm.trans e
      rfl

/-! ## The stack (R23, R50) -/

/-- A push is refused exactly by a full stack. -/
theorem push_eq_none_iff {s : State} {v : Word} : s.push v = none ↔ s.sp.val = 16 := by
  refine ⟨fun h => ?_, push_of_full v⟩
  by_contra hne
  have hlt : s.sp.val < 16 := by omega
  rw [push_of_lt v hlt] at h
  cases h

/-- A stack that is not empty has a last pushed cell. -/
theorem exists_sp_eq_succ {s : State} (h : s.sp.val ≠ 0) : ∃ j : Fin 16, s.sp.val = j.val + 1 :=
  ⟨⟨s.sp.val - 1, by omega⟩, by simp only []; omega⟩

/-- A pop is refused exactly by an empty stack. -/
theorem pop_eq_none_iff {s : State} : s.pop = none ↔ s.sp.val = 0 := by
  refine ⟨fun h => ?_, pop_of_empty⟩
  by_contra hne
  obtain ⟨j, hj⟩ := exists_sp_eq_succ hne
  rw [pop_of_succ hj] at h
  cases h

/-- A push that is not refused writes `stack[sp]`, adds one to `sp`, and leaves the rest. -/
theorem exists_push_of_lt {s : State} (v : Word) (h : s.sp.val < 16) :
    ∃ t, s.push v = some t ∧ t.cell ⟨s.sp.val, h⟩ = v ∧ t.sp.val = s.sp.val + 1 ∧
      (∀ j : Fin 16, j.val ≠ s.sp.val → t.cell j = s.cell j) ∧ t = { s with stack := t.stack, sp := t.sp } := by
  have e := push_of_lt v h
  refine ⟨_, e, ?_, rfl, fun j hj => ?_, rfl⟩
  · rw [push_cell e, if_pos rfl]
  · rw [push_cell e, if_neg hj]

/-- The fetch does not depend on the stack and its pointer. -/
theorem fetch_with_stack_sp (s : State) (k : Vector Word 16) (j : Fin 17) :
    State.fetch { s with stack := k, sp := j } = s.fetch := rfl

/-- Settles O30, from the laws of push and pop; a refusal is turned into the fault by the laws of `CALL` and `RETURN`. -/
theorem pushAndPopStayInTheStack : Obligations.PushAndPopStayInTheStack :=
  ⟨fun _ v => push_of_full v,
    fun _ v h => exists_push_of_lt v h,
    fun _ => pop_of_empty,
    fun _ _ h => ⟨_, pop_of_succ h, rfl, rfl⟩,
    fun nnn _ h => ⟨_, execCall_of_full nnn (push_eq_none_iff.mp h), rfl, rfl, rfl, rfl⟩,
    fun _ h => ⟨_, execRet_of_empty (pop_eq_none_iff.mp h), rfl, rfl, rfl, rfl⟩,
    fetch_with_stack_sp⟩

end Sys2Proof.Machine

/-! PROOFS. Memory (family 20_memory): the bound of the fetch, and the parity of `pc`. -/

namespace Sys2Proof.Machine

/-! ## The bound of the fetch (R41) -/

/-- A running core that cannot fetch faults in the same way whatever memory holds. -/
theorem step_with_mem_of_ge {s : State} (hr : s.runState = .running) (h : 4095 ≤ s.pc.toNat) (m : Memory) :
    step { s with mem := m } = .next (State.raiseFault { s with mem := m } .fetchOutOfBounds s.pc) :=
  step_of_fetch_none (s := { s with mem := m }) hr (fetch_of_ge h)

/-- No instruction raises `FETCH_OUT_OF_BOUNDS`. -/
theorem exec_faultCause_ne_fetchOutOfBounds {i : Instr} {s t : State} (hs : s.faultCause ≠ .fetchOutOfBounds)
    (e : exec i s = .next t) : t.faultCause ≠ .fetchOutOfBounds := by
  rcases exec_cases e with ⟨-, rfl⟩ | ⟨x, y, -, rfl⟩ | ⟨nnn, -, -, rfl⟩ | ⟨nnn, -, -, rfl⟩ |
    ⟨-, j, -, rfl⟩ | ⟨-, -, rfl⟩
  · exact hs
  · exact hs
  · exact hs
  · simp
  · exact hs
  · simp

/-- A step of a running core raises `FETCH_OUT_OF_BOUNDS` exactly from `pc = 4095` on. -/
theorem step_faultCause_eq_fetchOutOfBounds_iff {s t : State} (hr : s.runState = .running)
    (hs : s.faultCause ≠ .fetchOutOfBounds) (e : step s = .next t) :
    t.faultCause = .fetchOutOfBounds ↔ 4095 ≤ s.pc.toNat := by
  rcases step_cases e with ⟨hn, -⟩ | ⟨-, hp, rfl⟩ | ⟨-, hp, op, -, ⟨i, -, ei⟩ | ⟨-, rfl⟩⟩
  · exact absurd hr hn
  · exact iff_of_true rfl hp
  · exact iff_of_false (exec_faultCause_ne_fetchOutOfBounds (s := s.movePc .advance) hs ei) (by omega)
  · exact iff_of_false (by simp) (by omega)

/-- Settles O15: the fault entry does not read memory, and no later stage of the step records this cause. -/
theorem fetchOutOfBoundsExactlyFrom4095 : Obligations.FetchOutOfBoundsExactlyFrom4095 :=
  fun _ hr hnone => ⟨step_with_mem_of_ge hr,
    fun _ => step_faultCause_eq_fetchOutOfBounds_iff hr (by simp [hnone])⟩

/-! ## The parity of `pc` and of the return addresses (R40) -/

/-- `pc` is even, and so is every pending return address. -/
def State.EvenAddresses (s : State) : Prop :=
  s.pc.toNat % 2 = 0 ∧ ∀ j : Fin 16, j.val < s.sp.val → (s.cell j).toNat % 2 = 0

/-- The advance keeps the parity of `pc`, even where it wraps. -/
theorem advance_toNat_mod_two (pc : Word) : (nextPc pc .advance).toNat % 2 = pc.toNat % 2 := by
  simp only [nextPc_advance, BitVec.toNat_add, BitVec.toNat_ofNat]
  omega

theorem movePc_advance_evenAddresses {s : State} (hs : s.EvenAddresses) : (s.movePc .advance).EvenAddresses :=
  ⟨(advance_toNat_mod_two s.pc).trans hs.1, hs.2⟩

/-- What a `CALL` that does not overflow leaves in a stack cell: the return address in the pushed one. -/
theorem exec_call_cell_of_lt {nnn : Addr} {s t : State} (e : exec (.call nnn) s = .next t) (h : s.sp.val < 16)
    (j : Fin 16) : t.cell j = if j.val = s.sp.val then s.pc else s.cell j := by
  cases (execCall_of_lt nnn h).symm.trans e
  exact push_cell (push_of_lt s.pc h) j

/-- An instruction keeps the addresses even unless it is a `CALL` to an odd address. -/
theorem exec_evenAddresses {i : Instr} {s t : State} (hs : s.EvenAddresses)
    (hcall : ∀ nnn, i = .call nnn → nnn.toNat % 2 = 0) (e : exec i s = .next t) : t.EvenAddresses := by
  obtain ⟨hpc, hcells⟩ := hs
  rcases exec_cases e with ⟨-, rfl⟩ | ⟨x, y, -, rfl⟩ | ⟨nnn, rfl, h, ht⟩ | ⟨nnn, -, -, rfl⟩ |
    ⟨-, j, hj, rfl⟩ | ⟨-, -, rfl⟩
  · exact ⟨hpc, hcells⟩
  · exact ⟨hpc, hcells⟩
  · have hsp : t.sp.val = s.sp.val + 1 := by rw [ht]
    refine ⟨?_, fun j hj => ?_⟩
    · have hlt := nnn.isLt
      have heven := hcall nnn rfl
      rw [exec_call_pc_of_lt e h, BitVec.toNat_setWidth]
      omega
    · rw [exec_call_cell_of_lt e h]
      split_ifs with hnew
      · exact hpc
      · exact hcells j (by omega)
  · exact ⟨hpc, hcells⟩
  · exact ⟨hcells j (by omega), fun k (hk : k.val < j.val) => hcells k (by omega)⟩
  · exact ⟨hpc, hcells⟩

/-- A step keeps the addresses even unless it runs a `CALL` to an odd address. -/
theorem step_evenAddresses {s t : State} (hs : s.EvenAddresses)
    (hcall : ∀ op nnn, s.fetch = some op → decodeWord op = some (.call nnn) → nnn.toNat % 2 = 0)
    (e : step s = .next t) : t.EvenAddresses := by
  rcases step_cases e with ⟨-, rfl⟩ | ⟨-, -, rfl⟩ | ⟨-, -, op, hf, ⟨i, hd, ei⟩ | ⟨-, rfl⟩⟩
  · exact hs
  · exact hs
  · exact exec_evenAddresses (movePc_advance_evenAddresses hs) (fun nnn hi => hcall op nnn hf (hi ▸ hd)) ei
  · exact movePc_advance_evenAddresses hs

/-- Settles O16: the fetch tests the bound alone, and a step keeps the addresses even or runs a `CALL` to an odd one. -/
theorem oddProgramCounterIsFetchedAndComesFromAnOddCall :
    Obligations.OddProgramCounterIsFetchedAndComesFromAnOddCall := by
  refine ⟨fun _ _ hle => fetch_of_le hle, fun s t hpc hcells e => ?_⟩
  by_cases hodd : ∃ op nnn, s.fetch = some op ∧ decodeWord op = some (.call nnn) ∧ nnn.toNat % 2 = 1
  · exact .inl hodd
  · have hs : s.EvenAddresses := ⟨hpc, hcells⟩
    refine .inr (step_evenAddresses hs (fun op nnn hf hd => ?_) e)
    by_contra hne
    exact hodd ⟨op, nnn, hf, hd, by omega⟩

end Sys2Proof.Machine

/-! PROOFS. The encoding (family 30_encoding): the fields of a word, and the opcode map. -/

namespace Sys2Proof

/-! ## The fields of a word (R52) -/

/-- A field, by the rule's formula: shifted down, and masked to its width by ones. -/
theorem extractLsb'_eq_shift_mask (op mask : Word) (start len : Nat) (h : mask.setWidth len = BitVec.allOnes len) :
    op.extractLsb' start len = ((op >>> start) &&& mask).setWidth len := by
  rw [BitVec.setWidth_and, h, BitVec.and_allOnes, BitVec.setWidth_ushiftRight_eq_extractLsb]

/-- Two neighbouring nibbles make the byte that covers both. -/
theorem extractLsb'_eight_eq_nibbles (op : Word) (start : Nat) :
    op.extractLsb' start 8 =
      ((op.extractLsb' (start + 4) 4).setWidth 8 <<< 4) ||| (op.extractLsb' start 4).setWidth 8 := by
  have h : op.extractLsb' (start + 4) 4 ++ op.extractLsb' start 4 = op.extractLsb' start 8 :=
    BitVec.extractLsb'_append_extractLsb'_eq_extractLsb' rfl
  rw [← BitVec.setWidth_append_eq_shiftLeft_setWidth_or, h, BitVec.setWidth_eq]

/-- The byte at the lower address is `(C << 4) | X`. -/
theorem highByte_eq_nibbles (op : Word) :
    highByte op = ((fieldsOf op).c.setWidth 8 <<< 4) ||| (fieldsOf op).x.setWidth 8 :=
  extractLsb'_eight_eq_nibbles op 8

/-- The byte at the higher address is `(Y << 4) | D`. -/
theorem lowByte_eq_nibbles (op : Word) :
    lowByte op = ((fieldsOf op).y.setWidth 8 <<< 4) ||| (fieldsOf op).d.setWidth 8 :=
  extractLsb'_eight_eq_nibbles op 0

theorem fieldsOf_kk (op : Word) : (fieldsOf op).kk = lowByte op := rfl

theorem fieldsOf_nnn_eq_nibbles (op : Word) :
    (fieldsOf op).nnn =
      ((fieldsOf op).x.setWidth 12 <<< 8) ||| ((fieldsOf op).y.setWidth 12 <<< 4) ||| (fieldsOf op).d.setWidth 12 := by
  have hxy : (fieldsOf op).x ++ (fieldsOf op).y = op.extractLsb' 4 8 :=
    BitVec.extractLsb'_append_extractLsb'_eq_extractLsb' rfl
  have hxyd : (fieldsOf op).x ++ (fieldsOf op).y ++ (fieldsOf op).d = (fieldsOf op).nnn := by
    rw [hxy]
    exact BitVec.extractLsb'_append_extractLsb'_eq_extractLsb' rfl
  calc (fieldsOf op).nnn
      = ((fieldsOf op).x ++ (fieldsOf op).y ++ (fieldsOf op).d).setWidth 12 := by rw [hxyd, BitVec.setWidth_eq]
    _ = _ := BitVec.setWidth_append_append_eq_shiftLeft_setWidth_or

/-! ## The rows of the opcode map, nibble by nibble (R55) -/

/-- A word is its four nibbles. -/
theorem word_eq_iff_nibbles (a b : Word) :
    a = b ↔ (fieldsOf a).c = (fieldsOf b).c ∧ (fieldsOf a).x = (fieldsOf b).x ∧
      (fieldsOf a).y = (fieldsOf b).y ∧ (fieldsOf a).d = (fieldsOf b).d := by
  refine ⟨fun h => by simp [h], fun ⟨hc, hx, hy, hd⟩ => ?_⟩
  rw [← opcodeOf_bytes a, ← opcodeOf_bytes b]
  simp only [highByte_eq_nibbles, lowByte_eq_nibbles, hc, hx, hy, hd]

/-- A word has a pattern under a mask exactly when each of its nibbles has. -/
theorem and_eq_iff_nibbles (op mask pattern : Word) :
    op &&& mask = pattern ↔
      (fieldsOf op).c &&& (fieldsOf mask).c = (fieldsOf pattern).c ∧
      (fieldsOf op).x &&& (fieldsOf mask).x = (fieldsOf pattern).x ∧
      (fieldsOf op).y &&& (fieldsOf mask).y = (fieldsOf pattern).y ∧
      (fieldsOf op).d &&& (fieldsOf mask).d = (fieldsOf pattern).d := by
  rw [word_eq_iff_nibbles]
  simp only [fieldsOf, BitVec.extractLsb'_and]

/-- `BitVec.and_allOnes` with its mask written as the literal that the simplifier makes of it. -/
theorem nibble_and_ones (a : Nibble) : a &&& 0xF#4 = a := BitVec.and_allOnes

theorem halt_row_iff_nibbles (op : Word) :
    op &&& 0xFFFF#16 = 0x0000#16 ↔
      (fieldsOf op).c = 0x0#4 ∧ (fieldsOf op).x = 0x0#4 ∧ (fieldsOf op).y = 0x0#4 ∧ (fieldsOf op).d = 0x0#4 := by
  rw [and_eq_iff_nibbles]
  simp [fieldsOf, nibble_and_ones]

theorem addXy_row_iff_nibbles (op : Word) :
    op &&& 0xF00F#16 = 0x8004#16 ↔ (fieldsOf op).c = 0x8#4 ∧ (fieldsOf op).d = 0x4#4 := by
  rw [and_eq_iff_nibbles]
  simp [fieldsOf, nibble_and_ones]

theorem call_row_iff_nibbles (op : Word) : op &&& 0xF000#16 = 0x2000#16 ↔ (fieldsOf op).c = 0x2#4 := by
  rw [and_eq_iff_nibbles]
  simp [fieldsOf, nibble_and_ones]

theorem ret_row_iff_nibbles (op : Word) :
    op &&& 0xFFFF#16 = 0x00EE#16 ↔
      (fieldsOf op).c = 0x0#4 ∧ (fieldsOf op).x = 0x0#4 ∧ (fieldsOf op).y = 0xE#4 ∧ (fieldsOf op).d = 0xE#4 := by
  rw [and_eq_iff_nibbles]
  simp [fieldsOf, nibble_and_ones]

/-! ## What the priority match selects (R56, R70) -/

section SelectArm
variable (f : Fields)

theorem selectArm_eq_addXy_iff (x y : Nibble) :
    selectArm f = some (.addXy x y) ↔ (f.c = 0x8#4 ∧ f.d = 0x4#4) ∧ x = f.x ∧ y = f.y := by
  unfold selectArm
  split_ifs with hhalt hadd
  · simp [hhalt]
  · simp [hadd, eq_comm]
  · simp [hadd]
  · simp [hadd]
  · simp [hadd]

theorem selectArm_eq_call_iff (nnn : Addr) : selectArm f = some (.call nnn) ↔ f.c = 0x2#4 ∧ nnn = f.nnn := by
  unfold selectArm
  split_ifs with hhalt hadd hcall
  · simp [hhalt]
  · simp [hadd]
  · simp [hcall, eq_comm]
  · simp [hcall]
  · simp [hcall]

theorem selectArm_eq_ret_iff :
    selectArm f = some .ret ↔ f.c = 0x0#4 ∧ f.x = 0x0#4 ∧ f.y = 0xE#4 ∧ f.d = 0xE#4 := by
  unfold selectArm
  split_ifs with hhalt hadd hcall hret
  · simp [hhalt]
  · simp [hadd]
  · simp [hcall]
  · simp [hret]
  · simp [hret]

theorem selectArm_eq_none_iff :
    selectArm f = none ↔
      ¬(f.c = 0x0#4 ∧ f.x = 0x0#4 ∧ f.y = 0x0#4 ∧ f.d = 0x0#4) ∧ ¬(f.c = 0x8#4 ∧ f.d = 0x4#4) ∧ f.c ≠ 0x2#4 ∧
        ¬(f.c = 0x0#4 ∧ f.x = 0x0#4 ∧ f.y = 0xE#4 ∧ f.d = 0xE#4) := by
  unfold selectArm
  split_ifs with hhalt hadd hcall hret
  · simp [hhalt]
  · simp [hadd]
  · simp [hcall]
  · simp [hret]
  · exact iff_of_true rfl ⟨hhalt, hadd, hcall, hret⟩

end SelectArm

/-! ## How many words are instructions -/

/-- A word is an instruction, by its class and its 12 bits as numbers: `HALT`, `ADD_XY`, `CALL`, `RETURN`. -/
theorem decodeWord_isSome_iff {c n : Nat} (hc : c < 16) (hn : n < 4096) :
    (decodeWord (BitVec.ofNat 16 (c * 4096 + n))).isSome = true ↔
      (c = 0 ∧ n = 0) ∨ (c = 8 ∧ n % 16 = 4) ∨ c = 2 ∨ (c = 0 ∧ n = 0xEE) := by
  have hop : (BitVec.ofNat 16 (c * 4096 + n)).toNat = c * 4096 + n := by
    rw [BitVec.toNat_ofNat]; omega
  rw [Option.isSome_iff_ne_none, decodeWord, ne_eq, selectArm_eq_none_iff]
  simp only [ne_eq, ← BitVec.toNat_inj, fieldsOf_c_toNat, fieldsOf_x_toNat, fieldsOf_y_toNat, fieldsOf_d_toNat,
    hop, BitVec.toNat_ofNat]
  omega

/-- Numbers below `k * m`, counted in `k` blocks of `m`. -/
theorem countP_range_mul (p : Nat → Bool) (k m : Nat) :
    (List.range (k * m)).countP p = ((List.range k).map fun c => (List.range m).countP fun n => p (c * m + n)).sum := by
  induction k with
  | zero => simp
  | succ k ih => simp [Nat.succ_mul, List.range_add, List.range_succ, ih, Function.comp_def]

/-- The instructions of a class, counted by a condition on the 12 bits. -/
theorem countP_decodeWord_class_eq_count {c : Nat} (hc : c < 16) (q : Nat → Prop) [DecidablePred q]
    (hq : ∀ n < 4096, ((c = 0 ∧ n = 0) ∨ (c = 8 ∧ n % 16 = 4) ∨ c = 2 ∨ (c = 0 ∧ n = 0xEE)) ↔ q n) :
    (List.range 4096).countP (fun n => (decodeWord (BitVec.ofNat 16 (c * 4096 + n))).isSome) = Nat.count q 4096 := by
  refine List.countP_congr fun n hn => ?_
  have hn := List.mem_range.mp hn
  rw [decodeWord_isSome_iff hc hn, hq n hn, decide_eq_true_iff]

/-- Class 0 holds `HALT` and `RETURN`, class 8 one word in 16, class 2 nothing but `CALL`s. -/
theorem countP_decodeWord_class {c : Nat} (hc : c < 16) :
    (List.range 4096).countP (fun n => (decodeWord (BitVec.ofNat 16 (c * 4096 + n))).isSome) =
      if c = 0 then 2 else if c = 8 then 256 else if c = 2 then 4096 else 0 := by
  have hcount := countP_decodeWord_class_eq_count hc
  split_ifs with h0 h8 h2
  · have hsub : ({0, 0xEE} : Finset Nat) ⊆ Finset.range 4096 := by simp [Finset.insert_subset_iff]
    rw [hcount (· ∈ ({0, 0xEE} : Finset Nat)) (by simp [h0]), Nat.count_eq_card_filter_range,
      Finset.filter_mem_eq_inter, Finset.inter_eq_right.mpr hsub]
    rfl
  · rw [hcount (· ≡ 4 [MOD 16]) (by simp [h8, Nat.ModEq]), Nat.count_modEq_card _ (by decide)]
    rfl
  · rw [hcount (fun _ => True) (by simp [h2]), Nat.count_true]
  · rw [hcount (fun _ => False) (by simp [h0, h2, h8]), Nat.count_false]

/-- R58: the instructions among the words of each of the 16 classes. -/
theorem countP_decodeWord_classes :
    (List.range 16).map (fun c =>
      (List.range 4096).countP fun n => (decodeWord (BitVec.ofNat 16 (c * 4096 + n))).isSome) =
    [2, 0, 4096, 0, 0, 0, 0, 0, 256, 0, 0, 0, 0, 0, 0, 0] := by
  rw [List.map_congr_left fun c hc => countP_decodeWord_class (List.mem_range.mp hc)]
  rfl

/-- 4354 of the 65536 words are instructions: 2 + 4096 + 256, summed over the classes. -/
theorem countP_decodeWord :
    (List.range 65536).countP (fun n => (decodeWord (BitVec.ofNat 16 n)).isSome) = 4354 := by
  calc (List.range (16 * 4096)).countP (fun n => (decodeWord (BitVec.ofNat 16 n)).isSome)
      = [2, 0, 4096, 0, 0, 0, 0, 0, 256, 0, 0, 0, 0, 0, 0, 0].sum := by
        rw [countP_range_mul, countP_decodeWord_classes]
    _ = 4354 := rfl

end Sys2Proof

namespace Sys2Proof.Machine

/-! ## The statements of the encoding -/

/-- A fetched word has its high byte at `pc` and its low byte after it (R39). -/
theorem read_of_fetch {s : State} {op : Word} (hf : s.fetch = some op) :
    s.mem.read s.pc.toNat = some (highByte op) ∧ s.mem.read (s.pc.toNat + 1) = some (lowByte op) := by
  obtain ⟨hp, rfl⟩ := fetch_eq_some_iff.mp hf
  rw [highByte_opcodeOf, lowByte_opcodeOf]
  exact ⟨Memory.read_of_lt (by simp only [Config.memSize]; omega),
    Memory.read_of_lt (by simp only [Config.memSize]; omega)⟩

/-- Settles O8: each formula is a shift and a mask of ones, and neighbouring fields join to `NNN`, `KK` and the bytes. -/
theorem fieldsOfEveryWord : Obligations.FieldsOfEveryWord := by
  refine ⟨fun op => ⟨extractLsb'_eq_shift_mask op 0xF#16 12 4 rfl, extractLsb'_eq_shift_mask op 0xF#16 8 4 rfl,
    extractLsb'_eq_shift_mask op 0xF#16 4 4 rfl, extractLsb'_eq_shift_mask op 0xF#16 0 4 rfl,
    extractLsb'_eq_shift_mask op 0xFFF#16 0 12 rfl, extractLsb'_eq_shift_mask op 0xFF#16 0 8 rfl,
    fieldsOf_nnn_eq_nibbles op, ?_⟩, fun s op hf => ?_⟩
  · rw [fieldsOf_kk, lowByte_eq_nibbles]
  · rw [← highByte_eq_nibbles, ← lowByte_eq_nibbles]
    exact read_of_fetch hf

/-- Settles O9: under each mask the pattern is the condition on the nibbles that the priority match tests, and the nibbles
keep the rows apart; the count is the sum over the 16 classes. -/
theorem opcodeMapDecidesEveryWord : Obligations.OpcodeMapDecidesEveryWord := by
  refine ⟨countP_decodeWord, fun op => ?_⟩
  simp only [ne_eq, halt_row_iff_nibbles, addXy_row_iff_nibbles, call_row_iff_nibbles, ret_row_iff_nibbles]
  exact ⟨selectArm_eq_halt_iff _, selectArm_eq_addXy_iff _, selectArm_eq_call_iff _, selectArm_eq_ret_iff _,
    selectArm_eq_none_iff _⟩

end Sys2Proof.Machine

/-! PROOFS. The instruction cycle (family 40_instruction_cycle): the fetch, and how a step and a host move leave the run. -/

namespace Sys2Proof.Machine

/-! ## The fetch (R67) -/

/-- Up to `pc = 4094` both bytes of the word exist in memory, and the fetch is the opcode they make (R39, R67). -/
theorem exists_fetch_eq_opcodeOf {s : State} (h : s.pc.toNat ≤ 4094) :
    ∃ high low, s.mem.read s.pc.toNat = some high ∧ s.mem.read (s.pc.toNat + 1) = some low ∧
      s.fetch = some (opcodeOf high low) := by
  have hf := fetch_of_le h
  obtain ⟨hhigh, hlow⟩ := read_of_fetch hf
  exact ⟨_, _, hhigh, hlow, by rw [opcodeOf_bytes, hf]⟩

/-- Settles O14: `opcodeOf` is the word of the statement, and without a fetch the step is the fault entry alone. -/
theorem fetchReadsTheBigEndianWord : Obligations.FetchReadsTheBigEndianWord :=
  fun _ => ⟨exists_fetch_eq_opcodeOf, fetch_of_ge, fun h hr => step_of_fetch_none hr (fetch_of_ge h)⟩

/-! ## How `RUNNING` is entered (R66) -/

/-- A step never enters `RUNNING`: outside it the state stays as it is. -/
theorem runState_of_step_running {s t : State} (e : step s = .next t) (ht : t.runState = .running) :
    s.runState = .running := by
  by_contra hn
  cases (step_of_not_running hn).symm.trans e
  exact hn ht

/-- The only move of the host that enters `RUNNING` is `run` from `IDLE` (R108). -/
theorem hostMove_enters_running {s t : State} {c : HostCommand} (e : hostMove c s = .next t)
    (ht : t.runState = .running) (hs : s.runState ≠ .running) : c = .run ∧ s.runState = .idle := by
  have hreset : c ≠ .reset := by
    rintro rfl
    cases e
    cases ht
  have hrun : c = .run := by
    by_contra hne
    exact hs ((hostMove_runState_of_write hreset hne e).symm.trans ht)
  refine ⟨hrun, ?_⟩
  by_contra hidle
  cases (hostMove_of_not_idle hidle hreset).symm.trans e
  exact hs ht

/-- Settles O18: outside `RUNNING` a step is the identity, and of the host's moves `run` in `IDLE` alone sets `RUNNING`. -/
theorem coreStepsOnlyWhileRunning : Obligations.CoreStepsOnlyWhileRunning := by
  refine ⟨fun s t hn e => ?_, fun _ _ => runState_of_step_running, fun _ _ _ => hostMove_enters_running⟩
  cases (step_of_not_running hn).symm.trans e
  rfl

/-! ## How a step leaves the run (R71) -/

/-- A step of a running core halts exactly on the word `0x0000` (R74). -/
theorem step_halted_iff {s t : State} (hr : s.runState = .running) (e : step s = .next t) :
    t.runState = .halted ↔ s.fetch = some 0x0000#16 := by
  refine ⟨fun ht => ?_, fun hf => ?_⟩
  · rcases step_runState_of_running hr e with ⟨-, hf⟩ | ⟨hfaulted, -⟩ | ⟨hrunning, -⟩
    · exact hf
    · cases ht.symm.trans hfaulted
    · cases ht.symm.trans hrunning
  · cases (step_of_decodeWord_some hr hf ((decodeWord_eq_halt_iff _).mpr rfl)).symm.trans e
    rfl

theorem raiseFault_goneWrong (s : State) (c : FaultCause) (w : Word) : (s.raiseFault c w).goneWrong := rfl

theorem not_goneWrong_of_running {s : State} (hr : s.runState = .running) : ¬ s.goneWrong := by
  simp [State.goneWrong, hr]

/-- The faults of the execute stage: a `CALL` into a full stack and a `RETURN` from an empty one (R88, R89). -/
theorem exec_goneWrong_iff {i : Instr} {s t : State} (hs : ¬ s.goneWrong) (e : exec i s = .next t) :
    t.goneWrong ↔ ((∃ nnn, i = .call nnn) ∧ s.sp.val = 16) ∨ (i = .ret ∧ s.sp.val = 0) := by
  rcases exec_cases e with ⟨rfl, rfl⟩ | ⟨x, y, rfl, rfl⟩ | ⟨nnn, rfl, h, rfl⟩ | ⟨nnn, rfl, h, rfl⟩ |
    ⟨rfl, j, h, rfl⟩ | ⟨rfl, h, rfl⟩
  · exact iff_of_false (by simp [State.goneWrong]) (by simp)
  · exact iff_of_false hs (by simp)
  · exact iff_of_false hs (by simp [Nat.ne_of_lt h])
  · exact iff_of_true (raiseFault_goneWrong ..) (.inl ⟨⟨nnn, rfl⟩, h⟩)
  · exact iff_of_false hs (by simp [h])
  · exact iff_of_true (raiseFault_goneWrong ..) (.inr ⟨rfl, h⟩)

/-- When a fetched word makes a running core fault: it is no instruction, or executing it faults (R87). -/
theorem step_goneWrong_iff_of_fetch {s t : State} {op : Word} (hr : s.runState = .running) (hf : s.fetch = some op)
    (e : step s = .next t) :
    t.goneWrong ↔
      decodeWord op = none ∨ ((∃ nnn, decodeWord op = some (.call nnn)) ∧ s.sp.val = 16) ∨
        (decodeWord op = some .ret ∧ s.sp.val = 0) := by
  cases hd : decodeWord op with
  | none =>
    cases (step_of_decodeWord_none hr hf hd).symm.trans e
    exact iff_of_true (raiseFault_goneWrong ..) (.inl rfl)
  | some i =>
    have ei := (step_of_decodeWord_some hr hf hd).symm.trans e
    simpa using exec_goneWrong_iff (not_goneWrong_of_running (s := s.movePc .advance) hr) ei

/-- A step of a running core faults exactly without a fetch, or by the fetched word. -/
theorem step_goneWrong_iff {s t : State} (hr : s.runState = .running) (e : step s = .next t) :
    t.goneWrong ↔
      s.fetch = none ∨
      ∃ op, s.fetch = some op ∧
        (decodeWord op = none ∨ ((∃ nnn, decodeWord op = some (.call nnn)) ∧ s.sp.val = 16) ∨
          (decodeWord op = some .ret ∧ s.sp.val = 0)) := by
  cases hf : s.fetch with
  | none =>
    cases (step_of_fetch_none hr hf).symm.trans e
    exact iff_of_true (raiseFault_goneWrong ..) (.inl rfl)
  | some op => simpa using step_goneWrong_iff_of_fetch hr hf e

/-- A step of a running core that neither halts nor faults leaves it running. -/
theorem step_running_of_not_halted {s t : State} (hr : s.runState = .running) (e : step s = .next t)
    (hhalt : t.runState ≠ .halted) (hfault : ¬ t.goneWrong) : t.runState = .running := by
  rcases step_runState_of_running hr e with ⟨h, -⟩ | ⟨h, -⟩ | ⟨h, -⟩
  · exact absurd h hhalt
  · exact absurd h hfault
  · exact h

/-- Settles O21, from when a step halts, when it faults, and that there is no other way out of `RUNNING`. -/
theorem runStateAfterEachStep : Obligations.RunStateAfterEachStep :=
  fun _ _ hr e => ⟨step_halted_iff hr e, step_goneWrong_iff hr e, step_running_of_not_halted hr e⟩

end Sys2Proof.Machine

/-! PROOFS. The halt (family 41_halt): the step that runs `HALT`, the way into `HALTED`, and that it is final. -/

namespace Sys2Proof.Machine

/-! ## The step that runs `HALT` (R74) -/

/-- A running core that fetches `0x0000` takes the advance of `pc` and halts. -/
theorem step_of_fetch_halt {s : State} (hr : s.runState = .running) (hf : s.fetch = some 0x0000#16) :
    step s = .next (s.movePc .advance).haltRun := by
  rw [step_of_decodeWord_some hr hf ((decodeWord_eq_halt_iff _).mpr rfl)]
  exact execHalt_eq _

/-! ## The way into `HALTED` -/

/-- A step that answers a state outside `RUNNING` answers the state it was given. -/
theorem eq_of_step_of_not_running {s t : State} (hn : s.runState ≠ .running) (e : step s = .next t) : t = s := by
  cases (step_of_not_running hn).symm.trans e
  rfl

/-- A step enters `HALTED` only from a running core that fetched the word `0x0000`. -/
theorem step_enters_halted {s t : State} (hs : s.runState ≠ .halted) (e : step s = .next t)
    (ht : t.runState = .halted) : s.runState = .running ∧ s.fetch = some 0x0000#16 := by
  by_cases hr : s.runState = .running
  · exact ⟨hr, (step_halted_iff hr e).mp ht⟩
  · exact absurd (eq_of_step_of_not_running hr e ▸ ht) hs

/-- No move of the host enters `HALTED`: reset ends in `IDLE`; in `IDLE`, `run` ends in `RUNNING` and a write keeps
`run_state`; outside `IDLE`, they are ignored. -/
theorem hostMove_not_halted {s t : State} {c : HostCommand} (hs : s.runState ≠ .halted)
    (e : hostMove c s = .next t) : t.runState ≠ .halted := by
  by_cases hreset : c = .reset
  · subst hreset
    cases e
    decide
  · by_cases hidle : s.runState = .idle
    · by_cases hrun : c = .run
      · subst hrun
        cases (hostMove_run_of_idle hidle).symm.trans e
        exact RunState.noConfusion
      · rwa [hostMove_runState_of_write hreset hrun e]
    · cases (hostMove_of_not_idle hidle hreset).symm.trans e
      exact hs

/-! ## A stopped core -/

/-- The host reads everything of a core that does not run (R110). -/
theorem hostRead_of_not_running {s : State} (hn : s.runState ≠ .running) (p : HostProbe) :
    hostRead p s = probeValue p s := if_neg fun h => hn h.1

/-- A legal state records no fault outside `FAULTED` (R26, R27). -/
theorem no_fault_recorded_of_not_faulted {s : State} (h : s.StatusOk) (hn : s.runState ≠ .faulted) :
    s.faultCause = .noFault ∧ s.faultInfo = 0#16 := by
  obtain ⟨hcause, hinfo⟩ := h
  have hnone := hcause.mpr hn
  exact ⟨hnone, hinfo hnone⟩

/-- Settles O23: the step at `0x0000` is the advance and the halt; nothing else enters `HALTED`; a halted core is none of
`RUNNING`, `IDLE` and `FAULTED`, so that it stays, can be read, and records no fault. -/
theorem haltStopsTheRun : Obligations.HaltStopsTheRun := by
  refine ⟨decodeWord_eq_halt_iff, execHalt_eq, fun _ => step_of_fetch_halt, fun _ _ => step_enters_halted,
    fun _ _ _ => hostMove_not_halted, fun s hh => ⟨fun t => eq_of_step_of_not_running ?_,
    fun c => hostMove_of_not_idle ?_⟩, fun s hh => hostRead_of_not_running ?_,
    fun s hinv hh => no_fault_recorded_of_not_faulted hinv.status ?_⟩
  all_goals simp [hh]

end Sys2Proof.Machine

/-! PROOFS. The addition (family 42_add_xy): the words of `ADD_XY`, and the state it leaves. -/

namespace Sys2Proof

/-! ## The words of `ADD_XY` (R55, R75) -/

/-- Two nibbles and the byte they make determine each other. -/
theorem byte_of_nibbles_inj (a b c d : Nibble) :
    (a.setWidth 8 <<< 4) ||| b.setWidth 8 = (c.setWidth 8 <<< 4) ||| d.setWidth 8 ↔ a = c ∧ b = d := by
  rw [← BitVec.setWidth_append_eq_shiftLeft_setWidth_or, ← BitVec.setWidth_append_eq_shiftLeft_setWidth_or,
    BitVec.setWidth_eq, BitVec.setWidth_eq]
  refine ⟨fun h => ⟨?_, ?_⟩, fun ⟨ha, hb⟩ => by rw [ha, hb]⟩
  · simpa only [BitVec.extractLsb'_append_eq_left] using congrArg (BitVec.extractLsb' 4 4) h
  · simpa only [BitVec.extractLsb'_append_eq_right] using congrArg (BitVec.extractLsb' 0 4) h

/-- The high byte of a word of class 8 is `0x80 | X`. -/
theorem highByte_eq_addXy_iff (op : Word) (x : Nibble) :
    highByte op = (0x80#8 ||| x.setWidth 8) ↔ (fieldsOf op).c = 0x8#4 ∧ (fieldsOf op).x = x := by
  rw [highByte_eq_nibbles]
  exact byte_of_nibbles_inj _ _ 0x8#4 x

/-- The low byte of a word whose last nibble is 4 is `(Y << 4) | 4`. -/
theorem lowByte_eq_addXy_iff (op : Word) (y : Nibble) :
    lowByte op = ((y.setWidth 8 <<< 4) ||| 0x04#8) ↔ (fieldsOf op).y = y ∧ (fieldsOf op).d = 0x4#4 := by
  rw [lowByte_eq_nibbles]
  exact byte_of_nibbles_inj _ _ y 0x4#4

/-- A word is `ADD_XY xX, xY` exactly when its bytes are `0x80 | X` and `(Y << 4) | 4`. -/
theorem decodeWord_eq_addXy_iff (op : Word) (x y : Nibble) :
    decodeWord op = some (.addXy x y) ↔
      highByte op = (0x80#8 ||| x.setWidth 8) ∧ lowByte op = ((y.setWidth 8 <<< 4) ||| 0x04#8) := by
  rw [decodeWord, selectArm_eq_addXy_iff, highByte_eq_addXy_iff, lowByte_eq_addXy_iff]
  constructor
  · rintro ⟨⟨hc, hd⟩, rfl, rfl⟩
    exact ⟨⟨hc, rfl⟩, rfl, hd⟩
  · rintro ⟨⟨hc, rfl⟩, rfl, hd⟩
    exact ⟨⟨hc, hd⟩, rfl, rfl⟩

end Sys2Proof

namespace Sys2Proof.Machine

/-! ## The state `ADD_XY` leaves (R33, R75) -/

/-- The carry, as the byte that the flag write puts into `x[15]` (R77). -/
theorem aluCarry_setWidth (a b : Byte) :
    (aluCarry a b).setWidth 8 = if a.toNat + b.toNat ≥ 256 then 0x01#8 else 0x00#8 := by
  unfold aluCarry
  split_ifs <;> rfl

section ExecAddXy
variable {x y : Nibble} {s t : State} (e : exec (.addXy x y) s = .next t)
include e

/-- The carry of the old operands is written last, so it stands in `x[15]` for every `X`. -/
theorem exec_addXy_readReg_flag :
    t.readReg 15#4 = if (s.readReg x).toNat + (s.readReg y).toNat ≥ 256 then 0x01#8 else 0x00#8 := by
  rw [← aluCarry_setWidth]
  exact (execAddXy_readReg e 15#4).trans (if_pos rfl)

theorem exec_addXy_readReg_dest (hx : x ≠ 15#4) :
    t.readReg x = BitVec.ofNat 8 (((s.readReg x).toNat + (s.readReg y).toNat) % 256) :=
  (execAddXy_readReg e x).trans ((if_neg hx).trans (if_pos rfl))

theorem exec_addXy_readReg_of_ne {i : Nibble} (hx : i ≠ x) (h15 : i ≠ 15#4) : t.readReg i = s.readReg i :=
  (execAddXy_readReg e i).trans ((if_neg h15).trans (if_neg hx))

theorem exec_addXy_eq_with_regs : t = { s with regs := t.regs } := by
  cases e; rfl

end ExecAddXy

/-- Settles O24: the words by their nibbles, the step by the dispatch, and the state by what each register reads. -/
theorem addXyAddsAndWritesTheCarry : Obligations.AddXyAddsAndWritesTheCarry := by
  refine ⟨decodeWord_eq_addXy_iff, fun _ _ _ _ => step_of_decodeWord_some, fun x y s => ?_⟩
  have e := execAddXy_eq x y s
  exact ⟨_, e, exec_addXy_readReg_flag e, exec_addXy_readReg_dest e, fun _ => exec_addXy_readReg_of_ne e,
    exec_addXy_eq_with_regs e⟩

end Sys2Proof.Machine

/-! PROOFS. Call and return (family 43_call_return): their words, the state each leaves, and that they are inverses. -/

namespace Sys2Proof

/-! ## The words of `CALL` (R55, R79) -/

/-- An address is its high nibble and its low byte. -/
theorem addr_eq_iff_nibble_byte (a b : Addr) :
    a = b ↔ a.extractLsb' 8 4 = b.extractLsb' 8 4 ∧ a.extractLsb' 0 8 = b.extractLsb' 0 8 := by
  refine ⟨fun h => by simp [h], fun ⟨hhigh, hlow⟩ => ?_⟩
  have join (c : Addr) : c.extractLsb' 8 4 ++ c.extractLsb' 0 8 = c :=
    (BitVec.extractLsb'_append_extractLsb'_eq_extractLsb' rfl).trans BitVec.extractLsb'_eq_self
  rw [← join a, ← join b, hhigh, hlow]

/-- The high nibble of `NNN` is the field `X` (R52). -/
theorem fieldsOf_nnn_high (op : Word) : (fieldsOf op).nnn.extractLsb' 8 4 = (fieldsOf op).x :=
  BitVec.extractLsb'_extractLsb'_of_le (by decide)

/-- The low byte of `NNN` is the byte at the higher address (R52). -/
theorem fieldsOf_nnn_low (op : Word) : (fieldsOf op).nnn.extractLsb' 0 8 = lowByte op :=
  BitVec.extractLsb'_extractLsb'_of_le (by decide)

/-- The high byte of a word of class 2 is `0x20 | X`. -/
theorem highByte_eq_call_iff (op : Word) (x : Nibble) :
    highByte op = (0x20#8 ||| x.setWidth 8) ↔ (fieldsOf op).c = 0x2#4 ∧ (fieldsOf op).x = x := by
  rw [highByte_eq_nibbles]
  exact byte_of_nibbles_inj _ _ 0x2#4 x

/-- A word is `CALL NNN` exactly when its bytes are `0x20 | NNN[11:8]` and `NNN[7:0]`. -/
theorem decodeWord_eq_call_iff (op : Word) (nnn : Addr) :
    decodeWord op = some (.call nnn) ↔
      highByte op = (0x20#8 ||| (nnn.extractLsb' 8 4).setWidth 8) ∧ lowByte op = nnn.extractLsb' 0 8 := by
  rw [decodeWord, selectArm_eq_call_iff, eq_comm (a := nnn), addr_eq_iff_nibble_byte, fieldsOf_nnn_high,
    fieldsOf_nnn_low, highByte_eq_call_iff, and_assoc]

/-! ## The word of `RETURN` (R55, R80) -/

/-- `0x00EE` is the one word that is `RETURN`. -/
theorem decodeWord_eq_ret_iff (op : Word) : decodeWord op = some .ret ↔ op = 0x00EE#16 := by
  have hmask : op &&& 0xFFFF#16 = op := BitVec.and_allOnes
  rw [decodeWord, selectArm_eq_ret_iff, ← ret_row_iff_nibbles, hmask]

end Sys2Proof

namespace Sys2Proof.Machine

/-! ## `CALL` (R79) -/

/-- The value that a `CALL` pushes: a fetched `pc` is at most 4094, so its advance does not wrap (R24). -/
theorem advanced_pc_bounds_of_fetch {s : State} {op : Word} (hf : s.fetch = some op) :
    2 ≤ (s.pc + 2#16).toNat ∧ (s.pc + 2#16).toNat ≤ 4096 ∧ (s.pc + 2#16).toNat = s.pc.toNat + 2 := by
  obtain ⟨hle, -⟩ := fetch_eq_some_iff.mp hf
  have hadv := advance_toNat hle
  rw [nextPc_advance] at hadv
  omega

/-- A `CALL` into a stack that is not full pushes `pc`, jumps to `NNN`, and leaves the rest. -/
theorem exists_exec_call_of_lt (nnn : Addr) (s : State) (h : s.sp.val < 16) :
    ∃ t, exec (.call nnn) s = .next t ∧ t.cell ⟨s.sp.val, h⟩ = s.pc ∧
      (∀ j : Fin 16, j.val ≠ s.sp.val → t.cell j = s.cell j) ∧ t.sp.val = s.sp.val + 1 ∧
      t = { s with stack := t.stack, sp := t.sp, pc := nnn.setWidth 16 } := by
  have e : exec (.call nnn) s = _ := execCall_of_lt nnn h
  refine ⟨_, e, ?_, fun j hj => ?_, rfl, rfl⟩
  · exact (exec_call_cell_of_lt e h _).trans (if_pos rfl)
  · exact (exec_call_cell_of_lt e h j).trans (if_neg hj)

/-- A `CALL` that does not overflow leaves `run_state`. -/
theorem exec_call_runState_of_lt {nnn : Addr} {s t : State} (e : exec (.call nnn) s = .next t)
    (h : s.sp.val < 16) : t.runState = s.runState := by
  cases (execCall_of_lt nnn h).symm.trans e
  rfl

/-- After `CALL 0xFFF` the core stands at 4095, where there is no fetch (R41, R79). -/
theorem step_after_call_last_address {s t : State} (hr : s.runState = .running) (h : s.sp.val < 16)
    (e : exec (.call 0xFFF) s = .next t) : step t = .next (t.raiseFault .fetchOutOfBounds 0x0FFF#16) := by
  have hpc : t.pc = 0x0FFF#16 := exec_call_pc_of_lt e h
  have hfetch : t.fetch = none := fetch_of_ge (by simp [hpc])
  rw [step_of_fetch_none ((exec_call_runState_of_lt e h).trans hr) hfetch, hpc]

/-- Settles O26: the words by their nibbles, the step by the dispatch, and both outcomes by whether the push is refused. -/
theorem callPushesAndJumps : Obligations.CallPushesAndJumps :=
  ⟨decodeWord_eq_call_iff,
    fun _ _ _ hr hf hd => ⟨step_of_decodeWord_some hr hf hd, advanced_pc_bounds_of_fetch hf⟩,
    exists_exec_call_of_lt,
    fun nnn _ => execCall_of_full nnn,
    fun _ _ => step_after_call_last_address⟩

/-! ## `RETURN` (R80) -/

/-- A running core that fetches `0x00EE` executes `RETURN` with `pc` advanced. -/
theorem step_of_fetch_ret {s : State} (hr : s.runState = .running) (hf : s.fetch = some 0x00EE#16) :
    step s = exec .ret (s.movePc .advance) :=
  step_of_decodeWord_some hr hf ((decodeWord_eq_ret_iff _).mpr rfl)

/-- Settles O27: the word by its nibbles, the step by the dispatch, and both outcomes by whether the pop is refused. -/
theorem returnPopsIntoPc : Obligations.ReturnPopsIntoPc :=
  ⟨decodeWord_eq_ret_iff,
    fun _ => step_of_fetch_ret,
    fun _ _ h => ⟨_, execRet_of_succ h, rfl, rfl, rfl⟩,
    fun _ => execRet_of_empty⟩

/-! ## `RETURN` after `CALL` (R81) -/

/-- The step of a `CALL` that does not overflow leaves the address after it in the cell at `sp`. -/
theorem step_call_pushed_cell {s t : State} {op : Word} {nnn : Addr} (h : s.sp.val < 16)
    (hr : s.runState = .running) (hf : s.fetch = some op) (hd : decodeWord op = some (.call nnn))
    (e : step s = .next t) : t.cell ⟨s.sp.val, h⟩ = s.pc + 2#16 := by
  have ecall : exec (.call nnn) (s.movePc .advance) = .next t := (step_of_decodeWord_some hr hf hd).symm.trans e
  exact (exec_call_cell_of_lt ecall h _).trans (if_pos rfl)

/-- Settles O29: the `RETURN` pops the cell that the `CALL` wrote, which still holds the address after the `CALL`. -/
theorem returnUndoesCall : Obligations.ReturnUndoesCall := by
  intro s t u op nnn h hr hf hd e hru hfu hsp hkeep
  have hcell : u.cell ⟨s.sp.val, h⟩ = s.pc + 2#16 := hkeep.trans (step_call_pushed_cell h hr hf hd e)
  have eret : step u = _ :=
    (step_of_fetch_ret hru hfu).trans (execRet_of_succ (s := u.movePc .advance) (j := ⟨s.sp.val, h⟩) hsp)
  exact ⟨_, eret, hcell, rfl, hcell⟩

end Sys2Proof.Machine

/-! PROOFS. Unimplemented opcodes (family 44_unimplemented): which words they are, and the fault they raise. -/

namespace Sys2Proof.Machine

/-- R85: an unimplemented opcode is a word that has no row's pattern under the row's mask; the opcode map says so (R55). -/
theorem decodeWord_eq_none_iff (op : Word) :
    decodeWord op = none ↔
      op &&& 0xFFFF#16 ≠ 0x0000#16 ∧ op &&& 0xF00F#16 ≠ 0x8004#16 ∧ op &&& 0xF000#16 ≠ 0x2000#16 ∧
        op &&& 0xFFFF#16 ≠ 0x00EE#16 := by
  obtain ⟨-, hrows⟩ := opcodeMapDecidesEveryWord
  obtain ⟨-, -, -, -, hnone⟩ := hrows op
  exact hnone

/-- Settles O28: the count is that of each class; a word outside every row decodes to nothing, so its step is the advance
and the fault. -/
theorem unimplementedWordFaults : Obligations.UnimplementedWordFaults :=
  ⟨countP_decodeWord_classes, fun _ op hr hf hhalt hadd hcall hret =>
    ⟨step_of_decodeWord_none hr hf ((decodeWord_eq_none_iff op).mpr ⟨hhalt, hadd, hcall, hret⟩), rfl⟩⟩

end Sys2Proof.Machine

/-! PROOFS. Exceptions (family 60_exceptions): the four faults, the state a fault leaves, and that it is final. -/

namespace Sys2Proof

/-- A word that is a `CALL` is the encoding of it, so that a faulting `CALL` records the word that was fetched (R88). -/
theorem encode_call_of_decodeWord {op : Word} {nnn : Addr} (hd : decodeWord op = some (.call nnn)) :
    encode (.call nnn) = op := by
  obtain ⟨hc, rfl⟩ := (selectArm_eq_call_iff _ _).mp hd
  have hclass := fieldsOf_c_toNat op
  rw [hc, BitVec.toNat_ofNat] at hclass
  apply BitVec.eq_of_toNat_eq
  rw [encode_call_toNat, fieldsOf_nnn_toNat]
  omega

end Sys2Proof

namespace Sys2Proof.Machine

/-! ## The condition of each fault (R87) -/

/-- What makes the next step of a running core raise a fault of the cause: the table of R87, row by row. -/
def State.FaultCondition (s : State) : FaultCause → Prop
  | .noFault => False
  | .stackOverflow => ∃ op nnn, s.fetch = some op ∧ decodeWord op = some (.call nnn) ∧ s.sp.val = 16
  | .stackUnderflow => ∃ op, s.fetch = some op ∧ decodeWord op = some .ret ∧ s.sp.val = 0
  | .unimplementedOpcode => ∃ op, s.fetch = some op ∧ decodeWord op = none
  | .fetchOutOfBounds => 4095 ≤ s.pc.toNat

/-- Only the bound refuses a fetch (R41). -/
theorem le_pc_of_fetch_eq_none {s : State} (hf : s.fetch = none) : 4095 ≤ s.pc.toNat := by
  by_contra hlt
  rw [fetch_of_le (by omega)] at hf
  cases hf

/-- A fault of the execute stage is raised with `pc` advanced, and records the fetched word (R88 to R90). -/
theorem step_of_faultCondition {s : State} {c : FaultCause} (hr : s.runState = .running) (h : s.FaultCondition c)
    (hc : c ≠ .fetchOutOfBounds) :
    ∃ op, s.fetch = some op ∧ step s = .next ((s.movePc .advance).raiseFault c op) := by
  cases c with
  | noFault => exact h.elim
  | stackOverflow =>
    obtain ⟨op, nnn, hf, hd, hfull⟩ := h
    have e : exec (.call nnn) (s.movePc .advance) = _ := execCall_of_full nnn hfull
    rw [encode_call_of_decodeWord hd] at e
    exact ⟨op, hf, (step_of_decodeWord_some hr hf hd).trans e⟩
  | stackUnderflow =>
    obtain ⟨op, hf, hd, hempty⟩ := h
    obtain rfl := (decodeWord_eq_ret_iff op).mp hd
    exact ⟨_, hf, (step_of_fetch_ret hr hf).trans (execRet_of_empty hempty)⟩
  | unimplementedOpcode =>
    obtain ⟨op, hf, hd⟩ := h
    exact ⟨op, hf, step_of_decodeWord_none hr hf hd⟩
  | fetchOutOfBounds => exact absurd rfl hc

section FaultingStep
variable {s t : State} (hr : s.runState = .running) (e : step s = .next t)
include hr e

/-- Under a cause's condition the step raises that fault: from `pc` itself without a fetch, else from the advanced `pc`. -/
theorem step_faultCondition_cases {c : FaultCause} (h : s.FaultCondition c) :
    (c = .fetchOutOfBounds ∧ t = s.raiseFault c s.pc) ∨
      (c ≠ .fetchOutOfBounds ∧ ∃ op, s.fetch = some op ∧ t = (s.movePc .advance).raiseFault c op) := by
  by_cases hc : c = .fetchOutOfBounds
  · subst hc
    cases (step_of_fetch_none hr (fetch_of_ge h)).symm.trans e
    exact .inl ⟨rfl, rfl⟩
  · obtain ⟨op, hf, estep⟩ := step_of_faultCondition hr h hc
    cases estep.symm.trans e
    exact .inr ⟨hc, op, hf, rfl⟩

theorem step_faultCause_of_faultCondition {c : FaultCause} (h : s.FaultCondition c) :
    t.goneWrong ∧ t.faultCause = c := by
  rcases step_faultCondition_cases hr e h with ⟨-, rfl⟩ | ⟨-, op, -, rfl⟩
  · exact ⟨rfl, rfl⟩
  · exact ⟨rfl, rfl⟩

/-- A step that faults met the condition of some cause. -/
theorem exists_faultCondition_of_goneWrong (ht : t.goneWrong) : ∃ c, s.FaultCondition c := by
  rcases (step_goneWrong_iff hr e).mp ht with hf | ⟨op, hf, hd | ⟨⟨nnn, hd⟩, hfull⟩ | ⟨hd, hempty⟩⟩
  · exact ⟨.fetchOutOfBounds, le_pc_of_fetch_eq_none hf⟩
  · exact ⟨.unimplementedOpcode, op, hf, hd⟩
  · exact ⟨.stackOverflow, op, nnn, hf, hd, hfull⟩
  · exact ⟨.stackUnderflow, op, hf, hd, hempty⟩

/-- R87: a step of a running core raises a fault of a cause exactly under the condition of the cause. -/
theorem step_faultCause_iff (c : FaultCause) : (t.goneWrong ∧ t.faultCause = c) ↔ s.FaultCondition c := by
  refine ⟨fun ⟨ht, hcause⟩ => ?_, step_faultCause_of_faultCondition hr e⟩
  obtain ⟨c', h⟩ := exists_faultCondition_of_goneWrong hr e ht
  obtain ⟨-, hcause'⟩ := step_faultCause_of_faultCondition hr e h
  rwa [← hcause, hcause']

/-- All that a faulting step can leave: the fault entry alone at an address without a fetch, or, after the advance, the
fault entry of another cause with the fetched word (R94). -/
theorem step_goneWrong_cases (ht : t.goneWrong) :
    t = s.raiseFault .fetchOutOfBounds s.pc ∨
      ∃ c op, c ≠ .noFault ∧ c ≠ .fetchOutOfBounds ∧ s.fetch = some op ∧
        t = (s.movePc .advance).raiseFault c op := by
  obtain ⟨c, h⟩ := exists_faultCondition_of_goneWrong hr e ht
  rcases step_faultCondition_cases hr e h with ⟨rfl, hentry⟩ | ⟨hc, op, hf, hentry⟩
  · exact .inl hentry
  · refine .inr ⟨c, op, ?_, hc, hf, hentry⟩
    rintro rfl
    exact h

/-- The fault record of a faulting step: a cause, and the fetched word with `pc` advanced, or the `pc` of the fetch. -/
theorem step_goneWrong_record (ht : t.goneWrong) :
    t.faultCause ≠ .noFault ∧ t.sp = s.sp ∧ t.stack = s.stack ∧
      (t.faultCause ≠ .fetchOutOfBounds → s.fetch = some t.faultInfo ∧ t.pc = s.pc + 2#16) ∧
      (t.faultCause = .fetchOutOfBounds → t.faultInfo = s.pc ∧ t.pc = s.pc) := by
  rcases step_goneWrong_cases hr e ht with rfl | ⟨c, op, hnone, hc, hf, rfl⟩
  · exact ⟨FaultCause.noConfusion, rfl, rfl, fun hne => absurd rfl hne, fun _ => ⟨rfl, rfl⟩⟩
  · exact ⟨hnone, rfl, rfl, fun _ => ⟨hf, rfl⟩, fun heq => absurd heq hc⟩

end FaultingStep

/-- Settles O39: each row of the table is the condition of one cause, and the record is that of the state the fault leaves. -/
theorem faultCausesAndTheirConditions : Obligations.FaultCausesAndTheirConditions :=
  ⟨rfl, rfl, rfl, rfl, rfl, fun _ _ hr e =>
    ⟨step_faultCause_iff hr e .stackOverflow, step_faultCause_iff hr e .stackUnderflow,
      step_faultCause_iff hr e .unimplementedOpcode, step_faultCause_iff hr e .fetchOutOfBounds,
      step_goneWrong_record hr e⟩⟩

/-! ## A faulted core -/

theorem not_running_of_goneWrong {s : State} (h : s.goneWrong) : s.runState ≠ .running :=
  fun hr => not_goneWrong_of_running hr h

theorem not_idle_of_goneWrong {s : State} (h : s.goneWrong) : s.runState ≠ .idle :=
  fun hidle => RunState.noConfusion (hidle.symm.trans h)

theorem eq_of_step_of_goneWrong {s t : State} (h : s.goneWrong) : step s = .next t → t = s :=
  eq_of_step_of_not_running (not_running_of_goneWrong h)

/-! ## The state a fault leaves (R94) -/

/-- A fetched word stands in memory at `pc` (R39). -/
theorem wordAt_pc_of_fetch {s : State} {op : Word} (hf : s.fetch = some op) : s.wordAt s.pc.toNat = op := by
  obtain ⟨-, hop⟩ := fetch_eq_some_iff.mp hf
  exact hop.symm

theorem movePc_wordAt (s : State) (op : PcOp) (a : Nat) : (s.movePc op).wordAt a = s.wordAt a := rfl

theorem raiseFault_wordAt (s : State) (c : FaultCause) (w : Word) (a : Nat) :
    (s.raiseFault c w).wordAt a = s.wordAt a := rfl

/-- Where the word of a fault of the execute stage stands: the advance did not wrap, so it is two before `pc`. -/
theorem raiseFault_advance_wordAt {s t : State} {op : Word} {c : FaultCause} (hf : s.fetch = some op)
    (ht : t = (s.movePc .advance).raiseFault c op) :
    t.pc.toNat = s.pc.toNat + 2 ∧ t.wordAt (t.pc.toNat - 2) = op := by
  obtain ⟨-, -, hadv⟩ := advanced_pc_bounds_of_fetch hf
  have hpc : t.pc.toNat = s.pc.toNat + 2 := by rw [ht, raiseFault_pc, movePc_pc, nextPc_advance, hadv]
  refine ⟨hpc, ?_⟩
  rw [hpc, Nat.add_sub_cancel, ht, raiseFault_wordAt, movePc_wordAt, wordAt_pc_of_fetch hf]

/-- Settles O40: the two states that a faulting step can leave differ from the one before as the statement says; a faulted
core does not run, so that it stays and can be read. -/
theorem faultsArePrecise : Obligations.FaultsArePrecise := by
  intro s t hr e ht
  refine ⟨fun hne => ?_, fun heq => ?_, fun _ => eq_of_step_of_goneWrong ht,
    hostRead_of_not_running (not_running_of_goneWrong ht)⟩
  · rcases step_goneWrong_cases hr e ht with rfl | ⟨c, op, -, -, hf, rfl⟩
    · exact absurd rfl hne
    · exact ⟨rfl, raiseFault_advance_wordAt hf rfl⟩
  · rcases step_goneWrong_cases hr e ht with rfl | ⟨c, op, -, hc, -, rfl⟩
    · rfl
    · exact absurd heq hc

/-! ## Fault entry and its end (R93, R96) -/

/-- Settles O38: fault entry changes the three status registers alone, and the core it leaves has gone wrong. -/
theorem faultEntryWritesTheStatusRegisters : Obligations.FaultEntryWritesTheStatusRegisters :=
  fun s c w => ⟨rfl, raiseFault_pc s c w, raiseFault_sp s c w, raiseFault_readReg s c w, raiseFault_cell s c w,
    fun _ => by rw [raiseFault_mem], fun _ => eq_of_step_of_goneWrong (raiseFault_goneWrong s c w)⟩

/-- Settles O41: a faulted core is neither `RUNNING` nor `IDLE`, so that no step and no other move of the host changes it. -/
theorem faultedIsTerminal : Obligations.FaultedIsTerminal :=
  ⟨fun _ _ => eq_of_step_of_goneWrong, fun _ _ h => hostMove_of_not_idle (not_idle_of_goneWrong h),
    fun _ _ => ⟨State.reset, rfl, rfl, rfl, rfl⟩⟩

end Sys2Proof.Machine

/-! PROOFS. Reset and the host (family 70_reset_and_hazards): the reset state, what the host's moves do and leave, and what
the host can read. -/

namespace Sys2Proof.Machine

/-! ## Memory and its writes (R37, R38) -/

theorem Memory.read_set_self {m : Memory} {a : Nat} (v : Byte) (ha : a < Config.memSize) (h : m.wf = true) :
    (m.set a v).read a = some v := by
  rw [Memory.read_of_lt ha, Memory.get_set_self a v h]

theorem Memory.read_set_ne (m : Memory) {a b : Nat} (v : Byte) (h : b ≠ a) : (m.set a v).read b = m.read b := by
  unfold Memory.read
  rw [Memory.get_set_ne v h]

/-! ## The moves of the host (R105 to R108) -/

/-- A host write of a register in `IDLE` (R107). -/
theorem hostMove_writeReg_of_idle {s : State} (i : Nibble) (v : Byte) (h : s.runState = .idle) :
    hostMove (.writeReg i v) s = .next (s.writeReg i v) := if_pos h

/-- A host write in `IDLE` that answers a state wrote an address the machine has (R38). -/
theorem hostMove_writeMem_of_idle {s t : State} {a : Nat} {v : Byte} (h : s.runState = .idle)
    (e : hostMove (.writeMem a v) s = .next t) : a < 4096 ∧ t = { s with mem := s.mem.set a v } := by
  by_cases ha : a < 4096
  · cases (hostWriteMem_of_idle v h ha).symm.trans e
    exact ⟨ha, rfl⟩
  · have ha' : ¬ a < Config.memSize := ha
    simp [hostMove, hostWriteMem, h, Memory.write, ha'] at e

/-- All that a move of the host can do: reset; nothing outside `IDLE`; in `IDLE`, a write of a byte or of a register, or
the start of the run. -/
theorem hostMove_cases {s t : State} {c : HostCommand} (e : hostMove c s = .next t) :
    (c = .reset ∧ t = State.reset) ∨
    (c ≠ .reset ∧ s.runState ≠ .idle ∧ t = s) ∨
    (s.runState = .idle ∧
      ((∃ a v, c = .writeMem a v ∧ a < 4096 ∧ t = { s with mem := s.mem.set a v }) ∨
        (∃ i v, c = .writeReg i v ∧ t = s.writeReg i v) ∨
        (c = .run ∧ t = { s with runState := .running }))) := by
  by_cases hreset : c = .reset
  · subst hreset
    cases e
    exact .inl ⟨rfl, rfl⟩
  by_cases hidle : s.runState = .idle
  · refine .inr (.inr ⟨hidle, ?_⟩)
    cases c with
    | reset => exact absurd rfl hreset
    | writeMem a v => exact .inl ⟨a, v, rfl, hostMove_writeMem_of_idle hidle e⟩
    | writeReg i v =>
      cases (hostMove_writeReg_of_idle i v hidle).symm.trans e
      exact .inr (.inl ⟨i, v, rfl, rfl⟩)
    | run =>
      cases (hostMove_run_of_idle hidle).symm.trans e
      exact .inr (.inr ⟨rfl, rfl⟩)
  · cases (hostMove_of_not_idle hidle hreset).symm.trans e
    exact .inr (.inl ⟨hreset, hidle, rfl⟩)

/-- R107: without reset, no move of the host changes `pc`, `sp`, the stack or the fault registers. -/
theorem hostMove_frame {s t : State} {c : HostCommand} (hreset : c ≠ .reset) (e : hostMove c s = .next t) :
    t.pc = s.pc ∧ t.sp = s.sp ∧ t.stack = s.stack ∧ t.faultCause = s.faultCause ∧ t.faultInfo = s.faultInfo := by
  rcases hostMove_cases e with ⟨hc, -⟩ | ⟨-, -, rfl⟩ | ⟨-, ⟨a, v, -, -, rfl⟩ | ⟨i, v, -, rfl⟩ | ⟨-, rfl⟩⟩
  · exact absurd hc hreset
  all_goals exact ⟨rfl, rfl, rfl, rfl, rfl⟩

/-! ## Before the run: `pc`, `sp` and the stack are as reset leaves them -/

theorem reset_cell (j : Fin 16) : State.reset.cell j = 0x0000#16 := Vector.getElem_replicate j.isLt

theorem reset_idleOk : State.reset.IdleOk := fun _ => ⟨rfl, rfl, reset_cell⟩

/-- A step of a running core leaves `RUNNING` only for `HALTED` or `FAULTED` (R71). -/
theorem step_running_or_stopped {s t : State} (hr : s.runState = .running) (e : step s = .next t) :
    t.runState = .running ∨ t.runState = .halted ∨ t.runState = .faulted := by
  rcases step_runState_of_running hr e with ⟨hhalted, -⟩ | ⟨hfaulted, -⟩ | ⟨hrunning, -⟩
  · exact .inr (.inl hhalted)
  · exact .inr (.inr hfaulted)
  · exact .inl hrunning

/-- No step enters `IDLE`, so a step that ends there changed nothing. -/
theorem step_idleOk {s t : State} (hs : s.IdleOk) (e : step s = .next t) : t.IdleOk := by
  by_cases hr : s.runState = .running
  · intro hidle
    rcases step_running_or_stopped hr e with h | h | h <;> cases hidle.symm.trans h
  · rwa [eq_of_step_of_not_running hr e]

/-- Reset makes the reset state, a write leaves `pc`, `sp` and the stack, and `run` leaves `IDLE`. -/
theorem hostMove_idleOk {s t : State} {c : HostCommand} (hs : s.IdleOk) (e : hostMove c s = .next t) : t.IdleOk := by
  rcases hostMove_cases e with ⟨-, rfl⟩ | ⟨-, -, rfl⟩ | ⟨-, ⟨a, v, -, -, rfl⟩ | ⟨i, v, -, rfl⟩ | ⟨-, rfl⟩⟩
  · exact reset_idleOk
  · exact hs
  · exact hs
  · exact hs
  · exact fun hidle => RunState.noConfusion hidle

theorem Reachable.idleOk {s : State} (h : Reachable s) : s.IdleOk := by
  induction h with
  | reset => exact reset_idleOk
  | host c _ e ih => exact hostMove_idleOk ih e
  | core _ e ih => exact step_idleOk ih e

/-- A run from a reachable state starts at the entry point with an empty, zero stack (R107). -/
theorem hostMove_run_starts_at_entry {s t : State} (h : Reachable s) (hidle : s.runState = .idle)
    (e : hostMove .run s = .next t) : t.pc = 0x0000#16 ∧ t.sp.val = 0 ∧ ∀ j, t.cell j = 0x0000#16 := by
  cases (hostMove_run_of_idle hidle).symm.trans e
  obtain ⟨hpc, hsp, hcells⟩ := h.idleOk hidle
  exact ⟨hpc, congrArg Fin.val hsp, hcells⟩

/-- Settles O3: the write of a byte and of a register in `IDLE`, the frame of every move but reset, and that `pc`, `sp` and
the stack stay zero in `IDLE` along every way the state can be reached. -/
theorem hostLoadsMemoryAndRegistersInIdle : Obligations.HostLoadsMemoryAndRegistersInIdle := by
  refine ⟨fun s a v hidle hwf ha => ?_, fun s i v hidle => ?_, fun s a i v hn => ?_, fun s t c hreset e => ?_,
    fun _ _ => hostMove_run_starts_at_entry⟩
  · exact ⟨s.mem.set a v, hostWriteMem_of_idle v hidle ha, Memory.read_set_self v ha hwf,
      fun _ => Memory.read_set_ne s.mem v⟩
  · exact ⟨s.writeReg i v, hostMove_writeReg_of_idle i v hidle, rfl, readReg_writeReg_self s i v,
      fun _ => readReg_writeReg_ne s v⟩
  · exact ⟨hostMove_of_not_idle hn HostCommand.noConfusion, hostMove_of_not_idle hn HostCommand.noConfusion⟩
  · obtain ⟨hpc, hsp, hstack, hcause, hinfo⟩ := hostMove_frame hreset e
    exact ⟨hpc, hsp, hstack, hcause, hinfo, fun hrun => hostMove_runState_of_write hreset hrun e⟩

/-! ## The reset state (R30, R104) -/

theorem reset_readReg (i : Nibble) : State.reset.readReg i = 0x00#8 := Vector.getElem_replicate i.isLt

theorem reset_mem_read {a : Nat} (h : a < 4096) : State.reset.mem.read a = some 0x00#8 := Memory.read_of_lt h

/-- R30: empty memory holds the word of `HALT` at the entry point. -/
theorem fetch_run_of_reset : { State.reset with runState := .running }.fetch = some 0x0000#16 := by decide

/-- Settles O1: reset ignores the state it is given, and a run of the reset state fetches the zero word, which is `HALT`. -/
theorem resetLeavesEveryPieceAtItsValue : Obligations.ResetLeavesEveryPieceAtItsValue :=
  ⟨reset_readReg, fun _ => reset_mem_read, rfl, reset_cell, rfl, rfl, rfl, rfl, rfl, rfl, fun _ => rfl,
    _, hostMove_run_of_idle rfl, step_of_fetch_halt rfl fetch_run_of_reset⟩

/-! ## Which moves have an effect (R105, R108, R109) -/

theorem hostMove_of_running {s : State} {c : HostCommand} (hr : s.runState = .running) (hc : c ≠ .reset) :
    hostMove c s = .next s :=
  hostMove_of_not_idle (fun hidle => RunState.noConfusion (hidle.symm.trans hr)) hc

/-- Settles O2: a stopped core is neither `RUNNING`, so no step changes it, nor `IDLE`, so no move but reset does; a running
core is not `IDLE`. -/
theorem resetIsTheOnlyWayOut : Obligations.ResetIsTheOnlyWayOut := by
  refine ⟨fun _ => rfl, fun s hstopped => ?_, fun _ _ => hostMove_of_running⟩
  have hstill : s.runState ≠ .running ∧ s.runState ≠ .idle := by
    rcases hstopped with h | h <;> simp [h]
  obtain ⟨hrunning, hidle⟩ := hstill
  exact ⟨fun _ => eq_of_step_of_not_running hrunning, fun _ => hostMove_of_not_idle hidle⟩

/-- Settles O4: `run` in `IDLE` and outside it, and where a step of a running core can lead. -/
theorem runCommandStartsTheCoreFromIdle : Obligations.RunCommandStartsTheCoreFromIdle :=
  ⟨fun _ => hostMove_run_of_idle, fun _ _ => step_running_or_stopped,
    fun _ hn => hostMove_of_not_idle hn HostCommand.noConfusion⟩

/-! ## What the host can read (R109, R110) -/

/-- `run_state` is read in every state. -/
theorem hostRead_runState (s : State) : hostRead .runState s = .next (s.runState.code.setWidth 16) :=
  if_neg fun ⟨_, hp⟩ => hp rfl

/-- Nothing else is read of a running core. -/
theorem hostRead_of_running {s : State} {p : HostProbe} (hr : s.runState = .running) (hp : p ≠ .runState) :
    hostRead p s = .refused .hostHasNoAccess := if_pos ⟨hr, hp⟩

/-- Settles O5: a running core is not `IDLE`, so it ignores all moves but reset, and every read but one is refused. -/
theorem hostHasNoAccessWhileRunning : Obligations.HostHasNoAccessWhileRunning := by
  refine fun s hr => ⟨fun _ => hostMove_of_running hr, fun p hp v e => ?_, ?_, rfl⟩
  · cases (hostRead_of_running hr hp).symm.trans e
  · rw [hostRead_runState, hr]

theorem probeValue_mem {s : State} {a : Nat} {v : Byte} (h : s.mem.read a = some v) :
    probeValue (.mem a) s = .next (v.setWidth 16) := by
  simp [probeValue, h]

/-- Settles O6: a read of a core that does not run is the value of the probe, which is that piece of the state. -/
theorem hostInspectsAStoppedCore : Obligations.HostInspectsAStoppedCore := by
  intro s hn
  have hread := hostRead_of_not_running hn
  exact ⟨fun i => hread (.reg i), fun a _ h => (hread (.mem a)).trans (probeValue_mem h), fun j => hread (.stackCell j),
    hread .pc, hread .sp, hread .runState, hread .faultCause, hread .faultInfo⟩

end Sys2Proof.Machine

/-! PROOFS. Encoding and decoding (family other): the encoder inverts the decoder, the rows of the opcode map are disjoint,
and what a written instruction assembles to. -/

namespace Sys2Proof

/-! ## Decoding and encoding are inverse (R64) -/

/-- The fields of an encoded word are the operands, at the places and with the constants of the instruction's row (R62). -/
theorem decodeWord_encode (i : Instr) : decodeWord (encode i) = some i := by
  cases i with
  | halt => rfl
  | addXy x y =>
    have hx := x.isLt
    have hy := y.isLt
    refine (selectArm_eq_addXy_iff _ x y).mpr ?_
    simp only [← BitVec.toNat_inj, fieldsOf_c_toNat, fieldsOf_x_toNat, fieldsOf_y_toNat, fieldsOf_d_toNat,
      encode_addXy_toNat, BitVec.toNat_ofNat]
    omega
  | call nnn =>
    have hn := nnn.isLt
    refine (selectArm_eq_call_iff _ nnn).mpr ?_
    simp only [← BitVec.toNat_inj, fieldsOf_c_toNat, fieldsOf_nnn_toNat, encode_call_toNat, BitVec.toNat_ofNat]
    omega
  | ret => rfl

/-- Settles O10: the two bytes make the encoded word again, and that word decodes to the instruction. -/
theorem decodeOfEncodedInstruction : Obligations.DecodeOfEncodedInstruction := by
  intro i rest _
  have hword : decode (encodeBytes i ++ rest) = _ := decode_cons (highByte (encode i)) (lowByte (encode i)) rest
  rw [hword, opcodeOf_bytes, decodeWord_encode]

theorem word_eq_of_bytes {a b : Word} (hhigh : highByte a = highByte b) (hlow : lowByte a = lowByte b) : a = b := by
  rw [← opcodeOf_bytes a, ← opcodeOf_bytes b, hhigh, hlow]

/-- No two words stand for one instruction: its two bytes are given by its operands. -/
theorem decodeWord_inj {a b : Word} {i : Instr} (ha : decodeWord a = some i) (hb : decodeWord b = some i) : a = b := by
  cases i with
  | halt => rw [(Machine.decodeWord_eq_halt_iff a).mp ha, (Machine.decodeWord_eq_halt_iff b).mp hb]
  | addXy x y =>
    obtain ⟨hah, hal⟩ := (decodeWord_eq_addXy_iff a x y).mp ha
    obtain ⟨hbh, hbl⟩ := (decodeWord_eq_addXy_iff b x y).mp hb
    exact word_eq_of_bytes (hah.trans hbh.symm) (hal.trans hbl.symm)
  | call nnn =>
    obtain ⟨hah, hal⟩ := (decodeWord_eq_call_iff a nnn).mp ha
    obtain ⟨hbh, hbl⟩ := (decodeWord_eq_call_iff b nnn).mp hb
    exact word_eq_of_bytes (hah.trans hbh.symm) (hal.trans hbl.symm)
  | ret => rw [(decodeWord_eq_ret_iff a).mp ha, (decodeWord_eq_ret_iff b).mp hb]

/-- Settles O11: the word and the encoding of what it decodes to decode to the same instruction. -/
theorem encodeOfDecodedWord : Obligations.EncodeOfDecodedWord :=
  fun _ i hd => decodeWord_inj (decodeWord_encode i) hd

/-- Settles O7: each list of bytes is decoded by computation. -/
theorem sampleWordsDecode : Obligations.SampleWordsDecode :=
  ⟨rfl, rfl, rfl, rfl, rfl, rfl, rfl, rfl, rfl⟩

/-! ## The rows of the opcode map are disjoint (R57) -/

/-- A row covers exactly the words that decode to an instruction of the row (R55). -/
theorem row_covers_iff (op : Word) (i : Instr) :
    i.row.covers op = true ↔ ∃ j, decodeWord op = some j ∧ j.row = i.row := by
  obtain ⟨-, hrows⟩ := Machine.opcodeMapDecidesEveryWord
  obtain ⟨hhalt, hadd, hcall, hret, -⟩ := hrows op
  constructor
  · intro h
    have hpattern : op &&& i.row.mask = i.row.pattern := of_decide_eq_true h
    cases i with
    | halt => exact ⟨.halt, hhalt.mpr hpattern, rfl⟩
    | addXy => exact ⟨_, (hadd _ _).mpr ⟨hpattern, rfl, rfl⟩, rfl⟩
    | call => exact ⟨_, (hcall _).mpr ⟨hpattern, rfl⟩, rfl⟩
    | ret => exact ⟨.ret, hret.mpr hpattern, rfl⟩
  · rintro ⟨j, hd, hrow⟩
    rw [← hrow]
    cases j with
    | halt => exact decide_eq_true (hhalt.mp hd)
    | addXy x y => exact decide_eq_true ((hadd x y).mp hd).1
    | call nnn => exact decide_eq_true ((hcall nnn).mp hd).1
    | ret => exact decide_eq_true (hret.mp hd)

/-- The rows that cover a word: the row of its instruction, if it is one. -/
theorem filter_covers_eq (op : Word) :
    opcodeMap.filter (fun r => r.covers op) = ((decodeWord op).map Instr.row).toList := by
  have hcover : ∀ r ∈ opcodeMap, r.covers op = decide ((decodeWord op).map Instr.row = some r) := by
    have hmap : opcodeMap = [Instr.halt, .addXy 0 0, .call 0, .ret].map Instr.row := rfl
    rw [hmap, List.forall_mem_map]
    intro i _
    rw [Bool.eq_iff_iff, row_covers_iff, decide_eq_true_iff, Option.map_eq_some_iff]
  rw [List.filter_congr hcover]
  cases decodeWord op with
  | none => rfl
  | some i => cases i <;> rfl

/-- Settles O12: the rows that cover a word are counted by whether it decodes. -/
theorem patternsAreDisjoint : Obligations.PatternsAreDisjoint := by
  intro op
  rw [filter_covers_eq]
  cases decodeWord op <;> simp

/-! ## What a written instruction assembles to (R62) -/

/-- A source in range names the instruction with its operands. -/
theorem exists_toInstr_of_wellFormed {p : Source} (h : p.wellFormed = true) :
    ∃ i, p.toInstr = some i ∧ i.toSource = p := by
  unfold Source.toInstr
  rw [if_pos h]
  cases p with
  | halt => exact ⟨_, rfl, rfl⟩
  | addXy i j =>
    have hij : i < 16 ∧ j < 16 := by simpa [Source.wellFormed, regNumberOk] using h
    refine ⟨_, rfl, ?_⟩
    simp [Instr.toSource, Nat.mod_eq_of_lt hij.1, Nat.mod_eq_of_lt hij.2]
  | call target =>
    have ht : target < 4096 := by simpa [Source.wellFormed, targetOk] using h
    refine ⟨_, rfl, ?_⟩
    simp [Instr.toSource, Nat.mod_eq_of_lt ht]
  | ret => exact ⟨_, rfl, rfl⟩

/-- A source out of range has no word. -/
theorem assemble_of_not_wellFormed {p : Source} (h : p.wellFormed ≠ true) : p.assemble = none := by
  simp [Source.assemble, Source.toInstr, h]

/-- Settles O13: in range the word is the encoding of the instruction named, which decodes to it; out of range a check of
R62 fails. -/
theorem sourceAssemblesExactlyInRange : Obligations.SourceAssemblesExactlyInRange := by
  refine ⟨fun p h => ?_, fun i j h => ?_, fun target h => ?_⟩
  · obtain ⟨i, hi, hp⟩ := exists_toInstr_of_wellFormed h
    exact ⟨encode i, i, by rw [Source.assemble, hi, Option.map_some], decodeWord_encode i, hp⟩
  · refine assemble_of_not_wellFormed ?_
    simp only [Source.wellFormed, regNumberOk, Config.nregs, ne_eq, Bool.and_eq_true, decide_eq_true_eq]
    omega
  · refine assemble_of_not_wellFormed ?_
    simp only [Source.wellFormed, targetOk, Config.memSize, ne_eq, decide_eq_true_eq]
    omega

end Sys2Proof

/-! PROOFS. Instructions and steps (family other): that each answers, what it leaves unchanged, how `sp` counts calls, and
that the registers steer nothing. -/

namespace Sys2Proof.Machine

/-! ## Every step answers (R72) -/

/-- An instruction answers a state, whether or not its push or pop is refused. -/
theorem exists_exec_eq_next (i : Instr) (s : State) : ∃ t, exec i s = .next t := by
  cases i with
  | halt => exact ⟨_, execHalt_eq s⟩
  | addXy x y => exact ⟨_, execAddXy_eq x y s⟩
  | call nnn =>
    by_cases hfull : s.sp.val = 16
    · exact ⟨_, execCall_of_full nnn hfull⟩
    · exact ⟨_, execCall_of_lt nnn (by omega)⟩
  | ret =>
    by_cases hempty : s.sp.val = 0
    · exact ⟨_, execRet_of_empty hempty⟩
    · obtain ⟨j, hj⟩ := exists_sp_eq_succ hempty
      exact ⟨_, execRet_of_succ hj⟩

/-- Settles O19: outside `RUNNING`, without a fetch and at a word that is no instruction the next state is known; otherwise
it is that of an instruction. -/
theorem everyStepAnswersANextState : Obligations.EveryStepAnswersANextState := by
  intro s
  by_cases hr : s.runState = .running
  · cases hf : s.fetch with
    | none => exact ⟨_, step_of_fetch_none hr hf⟩
    | some op =>
      cases hd : decodeWord op with
      | none => exact ⟨_, step_of_decodeWord_none hr hf hd⟩
      | some i =>
        rw [step_of_decodeWord_some hr hf hd]
        exact exists_exec_eq_next i _
  · exact ⟨s, step_of_not_running hr⟩

/-! ## The step of a decoded instruction (R67 to R70) -/

/-- Two bytes that can be read at `pc` and after it are fetched: the second one bounds `pc` (R41). -/
theorem fetch_of_read {s : State} {high low : Byte} (hhigh : s.mem.read s.pc.toNat = some high)
    (hlow : s.mem.read (s.pc.toNat + 1) = some low) : s.fetch = some (opcodeOf high low) := by
  have hle : s.pc.toNat ≤ 4094 := by
    by_contra hgt
    rw [Memory.read_of_ge (by simp only [Config.memSize]; omega)] at hlow
    cases hlow
  obtain ⟨high', low', hhigh', hlow', hf⟩ := exists_fetch_eq_opcodeOf hle
  cases hhigh.symm.trans hhigh'
  cases hlow.symm.trans hlow'
  exact hf

/-- Bytes that decode are the bytes of a word that decodes. -/
theorem decodeWord_of_decode {high low : Byte} {i : Instr} {rest : List Byte}
    (h : decode (high :: low :: rest) = .ok (i, rest)) : decodeWord (opcodeOf high low) = some i := by
  rw [decode_cons] at h
  cases hd : decodeWord (opcodeOf high low) with
  | none => simp [hd] at h
  | some j => simpa [hd] using h

/-- Settles O17: the two bytes are the fetched word, which is at most at 4094, so that the advance does not wrap. -/
theorem stepRunsTheDecodedInstruction : Obligations.StepRunsTheDecodedInstruction := by
  intro s high low i hr hhigh hlow hdecode _
  have hf := fetch_of_read hhigh hlow
  obtain ⟨-, -, hadv⟩ := advanced_pc_bounds_of_fetch hf
  exact ⟨step_of_decodeWord_some hr hf (decodeWord_of_decode hdecode), hadv⟩

/-! ## The adder and the flag (R76, R77) -/

theorem aluCarry_aluSum_exact (a b : Byte) : (aluCarry a b).toNat * 256 + (aluSum a b).toNat = a.toNat + b.toNat := by
  have ha := a.isLt
  have hb := b.isLt
  rw [aluCarry_toNat, aluSum_toNat]
  split_ifs <;> omega

/-- What register 15 held has no influence on an `ADD_XY` that does not name it. -/
theorem exec_addXy_readReg_of_writeReg_flag {x y : Nibble} {s t u : State} {v : Byte} (hx : x ≠ 15#4) (hy : y ≠ 15#4)
    (et : exec (.addXy x y) s = .next t) (eu : exec (.addXy x y) (s.writeReg 15#4 v) = .next u) (i : Nibble) :
    u.readReg i = t.readReg i := by
  rw [execAddXy_readReg et, execAddXy_readReg eu, readReg_writeReg_ne s v hx, readReg_writeReg_ne s v hy]
  split_ifs with h15
  · rfl
  · rfl
  · exact readReg_writeReg_ne s v h15

/-- Settles O25: the carry is the 256 that the sum has lost, and the old flag is overwritten without being read. -/
theorem adderGivesTheExactNineBitSum : Obligations.AdderGivesTheExactNineBitSum :=
  ⟨aluCarry_aluSum_exact, fun _ _ _ _ _ _ => exec_addXy_readReg_of_writeReg_flag⟩

/-- Settles O37: the flag is the carry of the old operands, which is 1 from 256 on and 0 below. -/
theorem flagIsReplacedByEveryAdd : Obligations.FlagIsReplacedByEveryAdd := by
  intro x y s
  have e : exec (.addXy x y) s = _ := execAddXy_eq x y s
  have hflag := exec_addXy_readReg_flag e
  refine ⟨_, e, ?_, hflag.trans (aluCarry_setWidth _ _).symm, fun hlt => ?_, fun hge => hflag.trans (if_pos hge)⟩
  · rw [hflag]
    split_ifs
    · exact .inr rfl
    · exact .inl rfl
  · exact hflag.trans (if_neg (by omega))

/-! ## Frames -/

/-- Settles O32: `HALT` writes `run_state` alone. -/
theorem haltFrame : Obligations.HaltFrame := by
  intro s t e
  cases (execHalt_eq s).symm.trans e
  exact ⟨haltRun_readReg s, fun _ => by rw [haltRun_mem], haltRun_pc s, haltRun_cell s, haltRun_sp s,
    haltRun_faultCause s, haltRun_faultInfo s⟩

/-- Settles O33: `ADD_XY` writes registers alone, and of these the destination and the flag. -/
theorem addXyFrame : Obligations.AddXyFrame := by
  intro x y s t e
  refine ⟨fun _ => exec_addXy_readReg_of_ne e, ?_⟩
  rw [exec_addXy_eq_with_regs e]
  exact ⟨fun _ => rfl, rfl, fun _ => rfl, rfl, rfl, rfl, rfl⟩

/-- A `CALL` writes the stack, `sp` and `pc`, and no other cell than `stack[sp]`; a refused push writes the status registers
alone. -/
theorem exec_call_frame {nnn : Addr} {s t : State} (e : exec (.call nnn) s = .next t) :
    (∀ i, t.readReg i = s.readReg i) ∧ (∀ a, t.mem.read a = s.mem.read a) ∧
      (∀ j : Fin 16, j.val ≠ s.sp.val → t.cell j = s.cell j) ∧
      (s.sp.val < 16 → t.runState = s.runState ∧ t.faultCause = s.faultCause ∧ t.faultInfo = s.faultInfo) ∧
      (s.sp.val = 16 → t.sp = s.sp ∧ t.pc = s.pc ∧ ∀ j, t.cell j = s.cell j) := by
  by_cases hfull : s.sp.val = 16
  · cases (execCall_of_full nnn hfull).symm.trans e
    exact ⟨fun _ => rfl, fun _ => rfl, fun _ _ => rfl, fun hlt => absurd hfull (Nat.ne_of_lt hlt),
      fun _ => ⟨rfl, rfl, fun _ => rfl⟩⟩
  · have hlt : s.sp.val < 16 := by omega
    have hcell := exec_call_cell_of_lt e hlt
    cases (execCall_of_lt nnn hlt).symm.trans e
    exact ⟨fun _ => rfl, fun _ => rfl, fun j hj => (hcell j).trans (if_neg hj), fun _ => ⟨rfl, rfl, rfl⟩,
      fun h => absurd h hfull⟩

/-- A `RETURN` writes `sp` and `pc`; a refused pop writes the status registers alone. -/
theorem exec_ret_frame {s t : State} (e : exec .ret s = .next t) :
    (∀ i, t.readReg i = s.readReg i) ∧ (∀ a, t.mem.read a = s.mem.read a) ∧ (∀ j, t.cell j = s.cell j) ∧
      (0 < s.sp.val → t.runState = s.runState ∧ t.faultCause = s.faultCause ∧ t.faultInfo = s.faultInfo) ∧
      (s.sp.val = 0 → t.sp = s.sp ∧ t.pc = s.pc) := by
  by_cases hempty : s.sp.val = 0
  · cases (execRet_of_empty hempty).symm.trans e
    exact ⟨fun _ => rfl, fun _ => rfl, fun _ => rfl, fun hlt => absurd hempty (Nat.ne_of_gt hlt), fun _ => ⟨rfl, rfl⟩⟩
  · obtain ⟨j, hj⟩ := exists_sp_eq_succ hempty
    cases (execRet_of_succ hj).symm.trans e
    exact ⟨fun _ => rfl, fun _ => rfl, fun _ => rfl, fun _ => ⟨rfl, rfl, rfl⟩, fun h => absurd h hempty⟩

/-- Settles O34: the frames of the two instructions, by whether the push and the pop are refused. -/
theorem callAndReturnFrame : Obligations.CallAndReturnFrame :=
  ⟨fun _ _ _ => exec_call_frame, fun _ _ => exec_ret_frame⟩

/-! ## Memory (R36) -/

theorem exec_mem {i : Instr} {s t : State} (e : exec i s = .next t) : t.mem = s.mem := by
  rcases exec_cases e with ⟨-, rfl⟩ | ⟨x, y, -, rfl⟩ | ⟨nnn, -, -, rfl⟩ | ⟨nnn, -, -, rfl⟩ | ⟨-, j, -, rfl⟩ |
    ⟨-, -, rfl⟩
  all_goals rfl

theorem step_mem {s t : State} (e : step s = .next t) : t.mem = s.mem := by
  rcases step_cases e with ⟨-, rfl⟩ | ⟨-, -, rfl⟩ | ⟨-, -, op, -, ⟨i, -, ei⟩ | ⟨-, rfl⟩⟩
  · rfl
  · rfl
  · exact (exec_mem ei).trans (movePc_mem s .advance)
  · rfl

/-- Settles O35: no instruction and no fault writes memory. -/
theorem noStepWritesMemory : Obligations.NoStepWritesMemory :=
  fun _ _ e => ⟨step_mem e, fun _ => by rw [step_mem e]⟩

/-! ## The registers (R14) -/

/-- An instruction does the same with other register contents, but for what it leaves in the registers. -/
theorem exec_with_regs {i : Instr} {s t : State} (r : Vector Byte 16) (e : exec i s = .next t) :
    ∃ r', exec i { s with regs := r } = .next { t with regs := r' } := by
  rcases exec_cases e with ⟨rfl, rfl⟩ | ⟨x, y, rfl, rfl⟩ | ⟨nnn, rfl, h, rfl⟩ | ⟨nnn, rfl, h, rfl⟩ |
    ⟨rfl, j, h, rfl⟩ | ⟨rfl, h, rfl⟩
  · exact ⟨_, execHalt_eq _⟩
  · exact ⟨_, execAddXy_eq x y _⟩
  · exact ⟨_, execCall_of_lt (s := { s with regs := r }) nnn h⟩
  · exact ⟨_, execCall_of_full (s := { s with regs := r }) nnn h⟩
  · exact ⟨_, execRet_of_succ (s := { s with regs := r }) h⟩
  · exact ⟨_, execRet_of_empty (s := { s with regs := r }) h⟩

theorem fetch_with_regs (s : State) (r : Vector Byte 16) : State.fetch { s with regs := r } = s.fetch := rfl

/-- Settles O36: the test of `run_state`, the fetch and the decoding do not read the registers, and an instruction passes
them on to registers alone. -/
theorem registersNeverSteerTheRun : Obligations.RegistersNeverSteerTheRun := by
  intro s t r e
  rcases step_cases e with ⟨hn, rfl⟩ | ⟨hr, hp, rfl⟩ | ⟨hr, -, op, hf, ⟨i, hd, ei⟩ | ⟨hd, rfl⟩⟩
  · exact ⟨r, step_of_not_running (s := { t with regs := r }) hn⟩
  · exact ⟨r, step_of_fetch_none (s := { s with regs := r }) hr (fetch_of_ge hp)⟩
  · obtain ⟨r', er⟩ := exec_with_regs r ei
    exact ⟨r', (step_of_decodeWord_some (s := { s with regs := r }) hr hf hd).trans er⟩
  · exact ⟨r, step_of_decodeWord_none (s := { s with regs := r }) hr hf hd⟩

/-! ## The stack pointer (R82) -/

/-- An instruction leaves `sp`, unless it is a `CALL` or a `RETURN` that succeeds. -/
theorem exec_sp_cases {i : Instr} {s t : State} (e : exec i s = .next t) :
    t.sp = s.sp ∨ ((∃ nnn, i = .call nnn) ∧ t.sp.val = s.sp.val + 1) ∨ (i = .ret ∧ t.sp.val + 1 = s.sp.val) := by
  rcases exec_cases e with ⟨-, rfl⟩ | ⟨x, y, -, rfl⟩ | ⟨nnn, hi, h, rfl⟩ | ⟨nnn, -, -, rfl⟩ | ⟨hi, j, hj, rfl⟩ |
    ⟨-, -, rfl⟩
  · exact .inl rfl
  · exact .inl rfl
  · exact .inr (.inl ⟨⟨nnn, hi⟩, rfl⟩)
  · exact .inl rfl
  · exact .inr (.inr ⟨hi, hj.symm⟩)
  · exact .inl rfl

/-- A step leaves `sp`, unless it runs a `CALL` or a `RETURN` that succeeds. -/
theorem step_sp_cases {s t : State} (e : step s = .next t) :
    t.sp = s.sp ∨
    (s.runState = .running ∧ ∃ op, s.fetch = some op ∧
      (((∃ nnn, decodeWord op = some (.call nnn)) ∧ t.sp.val = s.sp.val + 1) ∨
        (decodeWord op = some .ret ∧ t.sp.val + 1 = s.sp.val))) := by
  rcases step_cases e with ⟨-, rfl⟩ | ⟨-, -, rfl⟩ | ⟨hr, -, op, hf, ⟨i, hd, ei⟩ | ⟨-, rfl⟩⟩
  · exact .inl rfl
  · exact .inl rfl
  · rcases exec_sp_cases ei with hsp | ⟨⟨nnn, rfl⟩, hsp⟩ | ⟨rfl, hsp⟩
    · exact .inl hsp
    · exact .inr ⟨hr, op, hf, .inl ⟨⟨nnn, hd⟩, hsp⟩⟩
    · exact .inr ⟨hr, op, hf, .inr ⟨hd, hsp⟩⟩
  · exact .inl rfl

/-- A `CALL` succeeds with up to 15 calls pending. -/
theorem step_call_of_lt {s t : State} {op : Word} {nnn : Addr} (hr : s.runState = .running) (hf : s.fetch = some op)
    (hd : decodeWord op = some (.call nnn)) (e : step s = .next t) (h : s.sp.val < 16) :
    t.sp.val = s.sp.val + 1 ∧ t.runState = .running := by
  have ecall : exec (.call nnn) (s.movePc .advance) = _ :=
    execCall_of_lt (s := s.movePc .advance) nnn h
  cases ((step_of_decodeWord_some hr hf hd).trans ecall).symm.trans e
  exact ⟨rfl, hr⟩

/-- A `RETURN` succeeds with a call pending. -/
theorem step_ret_of_pos {s t : State} (hr : s.runState = .running) (hf : s.fetch = some 0x00EE#16)
    (e : step s = .next t) (h : 0 < s.sp.val) : t.sp.val + 1 = s.sp.val ∧ t.runState = .running := by
  obtain ⟨j, hj⟩ := exists_sp_eq_succ (Nat.ne_of_gt h)
  have eret : exec .ret (s.movePc .advance) = _ := execRet_of_succ (s := s.movePc .advance) hj
  cases ((step_of_fetch_ret hr hf).trans eret).symm.trans e
  exact ⟨hj.symm, hr⟩

/-- Settles O31: how a step and a move of the host change `sp`; at the bounds the condition of the fault is met. -/
theorem stackPointerCountsPendingCalls : Obligations.StackPointerCountsPendingCalls := by
  refine ⟨fun _ _ => step_sp_cases, fun s t c hreset e => ?_, fun s t op nnn hr hf hd e => ?_, fun s t hr hf e => ?_⟩
  · obtain ⟨-, hsp, -⟩ := hostMove_frame hreset e
    exact hsp
  · exact ⟨step_call_of_lt hr hf hd e, fun hfull => step_faultCause_of_faultCondition hr e ⟨op, nnn, hf, hd, hfull⟩⟩
  · exact ⟨step_ret_of_pos hr hf e, fun hempty => step_faultCause_of_faultCondition hr e
      ⟨_, hf, (decodeWord_eq_ret_iff _).mpr rfl, hempty⟩⟩

end Sys2Proof.Machine

/-! PROOFS. The invariant (family other): it holds at reset, every step and every move of the host keep it, and so it holds
of every reachable state. -/

namespace Sys2Proof.Machine

/-! ## States that have not stopped -/

theorem State.faultRecordOk_of_noFault {s : State} (h : s.faultCause = .noFault) : s.FaultRecordOk := by
  simp [State.FaultRecordOk, h]

/-- Where the core has neither halted nor faulted the invariant says nothing of the word before `pc`. -/
theorem State.inv_of_not_stopped {s : State} (hmem : s.mem.wf = true) (hpc : s.pc.toNat ≤ Config.memSize)
    (hstack : s.StackOk) (hstatus : s.StatusOk) (hidle : s.IdleOk) (hhalted : s.runState ≠ .halted)
    (hfaulted : s.runState ≠ .faulted) : s.Inv where
  memory := hmem
  pcRange := hpc
  stack := hstack
  status := hstatus
  idle := hidle
  halted := fun h => absurd h hhalted
  faultRecord := State.faultRecordOk_of_noFault (hstatus.1.mpr hfaulted)

/-- Settles O42: reset leaves empty memory, a zero stack and no fault. -/
theorem resetMeetsTheInvariant : Obligations.ResetMeetsTheInvariant :=
  State.inv_of_not_stopped rfl (Nat.zero_le _) (fun j => .inr ⟨Nat.zero_le _, reset_cell j⟩)
    ⟨iff_of_true rfl RunState.noConfusion, fun _ => rfl⟩ reset_idleOk RunState.noConfusion RunState.noConfusion

/-! ## The moves of the host -/

/-- Settles O44: every move but reset that changes the state is one from `IDLE` to `IDLE` or `RUNNING`, and leaves `pc`, the
stack and the fault record. -/
theorem hostMovesKeepTheInvariant : Obligations.HostMovesKeepTheInvariant := by
  intro s t c hs e
  have hidleOk := hostMove_idleOk hs.idle e
  rcases hostMove_cases e with ⟨-, rfl⟩ | ⟨-, -, rfl⟩ | ⟨hidle, hmove⟩
  · exact resetMeetsTheInvariant
  · exact hs
  have hnotFaulted : s.runState ≠ .faulted := by simp [hidle]
  have hnotHalted : s.runState ≠ .halted := by simp [hidle]
  obtain ⟨hcause, hinfo⟩ := no_fault_recorded_of_not_faulted hs.status hnotFaulted
  rcases hmove with ⟨a, v, -, ha, rfl⟩ | ⟨i, v, -, rfl⟩ | ⟨-, rfl⟩
  · exact State.inv_of_not_stopped (Memory.wf_set v ha hs.memory) hs.pcRange hs.stack hs.status hidleOk hnotHalted
      hnotFaulted
  · exact State.inv_of_not_stopped hs.memory hs.pcRange hs.stack hs.status hidleOk hnotHalted hnotFaulted
  · exact State.inv_of_not_stopped hs.memory hs.pcRange hs.stack
      ⟨iff_of_true hcause RunState.noConfusion, fun _ => hinfo⟩ hidleOk RunState.noConfusion RunState.noConfusion

/-! ## `pc` and the stack (R18, R24) -/

/-- The cells below `sp` hold return addresses. -/
theorem State.StackOk.cell_of_lt {s : State} (h : s.StackOk) {j : Fin 16} (hj : j.val < s.sp.val) :
    isReturnAddress (s.cell j) := by
  rcases h j with hret | ⟨hle, -⟩
  · exact hret
  · omega

/-- After a fetch the advanced `pc` is one that a `CALL` can push. -/
theorem advance_isReturnAddress {s : State} {op : Word} (hf : s.fetch = some op) :
    isReturnAddress (s.movePc .advance).pc := by
  obtain ⟨hlow, hhigh, -⟩ := advanced_pc_bounds_of_fetch hf
  exact ⟨hlow, hhigh⟩

/-- An instruction that finds an advanced `pc` and a legal stack leaves `pc` in range: a jump has 12 bits, and a pop finds a
return address. -/
theorem exec_pcRange {i : Instr} {s t : State} (hpc : isReturnAddress s.pc) (hs : s.StackOk) (e : exec i s = .next t) :
    t.pc.toNat ≤ Config.memSize := by
  obtain ⟨-, hrange⟩ := hpc
  rcases exec_cases e with ⟨-, rfl⟩ | ⟨x, y, -, rfl⟩ | ⟨nnn, -, -, rfl⟩ | ⟨nnn, -, -, rfl⟩ | ⟨-, j, hj, rfl⟩ |
    ⟨-, -, rfl⟩
  · exact hrange
  · exact hrange
  · have hnnn := nnn.isLt
    simp only [BitVec.toNat_setWidth, Config.memSize]
    omega
  · exact hrange
  · obtain ⟨-, hcell⟩ := hs.cell_of_lt (j := j) (by omega)
    exact hcell
  · exact hrange

/-- An instruction that finds an advanced `pc` keeps the stack legal: a push writes that `pc`, and a pop keeps the cell. -/
theorem exec_stackOk {i : Instr} {s t : State} (hpc : isReturnAddress s.pc) (hs : s.StackOk) (e : exec i s = .next t) :
    t.StackOk := by
  rcases exec_cases e with ⟨-, rfl⟩ | ⟨x, y, -, rfl⟩ | ⟨nnn, rfl, h, ht⟩ | ⟨nnn, -, -, rfl⟩ | ⟨-, j, hj, rfl⟩ |
    ⟨-, -, rfl⟩
  · exact hs
  · exact hs
  · intro k
    have hsp : t.sp.val = s.sp.val + 1 := by rw [ht]
    rw [exec_call_cell_of_lt e h]
    split_ifs with hnew
    · exact .inl hpc
    · exact (hs k).imp_right fun ⟨hle, hzero⟩ => ⟨by omega, hzero⟩
  · exact hs
  · exact fun k => (hs k).imp_right fun ⟨hle, hzero⟩ => ⟨by simp only []; omega, hzero⟩
  · exact hs

theorem step_pcRange {s t : State} (hs : s.Inv) (e : step s = .next t) : t.pc.toNat ≤ Config.memSize := by
  rcases step_cases e with ⟨-, rfl⟩ | ⟨-, -, rfl⟩ | ⟨-, -, op, hf, ⟨i, -, ei⟩ | ⟨-, rfl⟩⟩
  · exact hs.pcRange
  · exact hs.pcRange
  · exact exec_pcRange (advance_isReturnAddress hf) hs.stack ei
  · exact (advance_isReturnAddress hf).2

theorem step_stackOk {s t : State} (hs : s.StackOk) (e : step s = .next t) : t.StackOk := by
  rcases step_cases e with ⟨-, rfl⟩ | ⟨-, -, rfl⟩ | ⟨-, -, op, hf, ⟨i, -, ei⟩ | ⟨-, rfl⟩⟩
  · exact hs
  · exact hs
  · exact exec_stackOk (advance_isReturnAddress hf) hs ei
  · exact hs

/-! ## The status registers (R26, R27) -/

/-- An instruction that does not fault leaves the fault record. -/
theorem exec_fault_record_of_not_goneWrong {i : Instr} {s t : State} (e : exec i s = .next t) (ht : ¬ t.goneWrong) :
    t.faultCause = s.faultCause ∧ t.faultInfo = s.faultInfo := by
  rcases exec_cases e with ⟨-, rfl⟩ | ⟨x, y, -, rfl⟩ | ⟨nnn, -, -, rfl⟩ | ⟨nnn, -, -, rfl⟩ | ⟨-, j, -, rfl⟩ |
    ⟨-, -, rfl⟩
  · exact ⟨rfl, rfl⟩
  · exact ⟨rfl, rfl⟩
  · exact ⟨rfl, rfl⟩
  · exact absurd (raiseFault_goneWrong ..) ht
  · exact ⟨rfl, rfl⟩
  · exact absurd (raiseFault_goneWrong ..) ht

/-- A step that does not fault leaves the fault record. -/
theorem step_fault_record_of_not_goneWrong {s t : State} (e : step s = .next t) (ht : ¬ t.goneWrong) :
    t.faultCause = s.faultCause ∧ t.faultInfo = s.faultInfo := by
  rcases step_cases e with ⟨-, rfl⟩ | ⟨-, -, rfl⟩ | ⟨-, -, op, -, ⟨i, -, ei⟩ | ⟨-, rfl⟩⟩
  · exact ⟨rfl, rfl⟩
  · exact absurd (raiseFault_goneWrong ..) ht
  · exact exec_fault_record_of_not_goneWrong (s := s.movePc .advance) ei ht
  · exact absurd (raiseFault_goneWrong ..) ht

/-! ## The word before `pc` (R73, R87) -/

/-- The advance did not wrap, so the fetched word stands two before the new `pc`. -/
theorem advance_wordAt {s : State} {op : Word} (hf : s.fetch = some op) :
    2 ≤ (s.movePc .advance).pc.toNat ∧ (s.movePc .advance).wordAt ((s.movePc .advance).pc.toNat - 2) = op := by
  obtain ⟨hlow, -, hadv⟩ := advanced_pc_bounds_of_fetch hf
  refine ⟨hlow, ?_⟩
  rw [movePc_pc, nextPc_advance, hadv, Nat.add_sub_cancel, movePc_wordAt, wordAt_pc_of_fetch hf]

section RunningStep
variable {s t : State} (hr : s.runState = .running) (e : step s = .next t)
include hr e

/-- A step of a running core records a cause exactly when it faults. -/
theorem step_statusOk (hs : s.StatusOk) : t.StatusOk := by
  by_cases ht : t.goneWrong
  · obtain ⟨hcause, -⟩ := step_goneWrong_record hr e ht
    exact ⟨iff_of_false hcause (fun hn => hn ht), fun h => absurd h hcause⟩
  · obtain ⟨hnone, hzero⟩ := no_fault_recorded_of_not_faulted hs (by simp [hr])
    obtain ⟨hcause, hinfo⟩ := step_fault_record_of_not_goneWrong e ht
    exact ⟨iff_of_true (hcause.trans hnone) ht, fun _ => hinfo.trans hzero⟩

/-- The step that halts leaves `pc` two past the word `0x0000` that it ran. -/
theorem step_haltedOk : t.HaltedOk := by
  intro ht
  have hf := (step_halted_iff hr e).mp ht
  cases (step_of_fetch_halt hr hf).symm.trans e
  exact advance_wordAt hf

/-- A fault record is true of the state that the fault leaves: its cause's condition was met, and the word stands before the
advanced `pc`. -/
theorem step_faultRecordOk (hs : s.StatusOk) : t.FaultRecordOk := by
  by_cases ht : t.goneWrong
  · obtain ⟨c, hc⟩ := exists_faultCondition_of_goneWrong hr e ht
    rcases step_faultCondition_cases hr e hc with ⟨rfl, rfl⟩ | ⟨hne, op, hf, rfl⟩
    · exact ⟨rfl, (fetchFault_iff s.pc).mpr hc⟩
    cases c with
    | noFault => exact hc.elim
    | stackOverflow =>
      obtain ⟨op', nnn, hf', hd, hfull⟩ := hc
      cases hf.symm.trans hf'
      exact ⟨hfull, ⟨nnn, (encode_call_of_decodeWord hd).symm⟩, advance_wordAt hf⟩
    | stackUnderflow =>
      obtain ⟨op', hf', hd, hempty⟩ := hc
      cases hf.symm.trans hf'
      exact ⟨hempty, (decodeWord_eq_ret_iff op).mp hd, advance_wordAt hf⟩
    | unimplementedOpcode =>
      obtain ⟨op', hf', hd⟩ := hc
      cases hf.symm.trans hf'
      exact ⟨hd, advance_wordAt hf⟩
    | fetchOutOfBounds => exact absurd rfl hne
  · exact State.faultRecordOk_of_noFault ((step_statusOk hr e hs).1.mpr ht)

end RunningStep

/-- Settles O43: a core that does not run stays as it is; for a running one each part of the invariant is kept by what an
instruction and a fault can do. -/
theorem stepKeepsTheInvariant : Obligations.StepKeepsTheInvariant := by
  intro s t hs e
  by_cases hr : s.runState = .running
  · exact
      { memory := by rw [step_mem e]; exact hs.memory
        pcRange := step_pcRange hs e
        stack := step_stackOk hs.stack e
        status := step_statusOk hr e hs.status
        idle := step_idleOk hs.idle e
        halted := step_haltedOk hr e
        faultRecord := step_faultRecordOk hr e hs.status }
  · rwa [eq_of_step_of_not_running hr e]

/-! ## Reachable states -/

theorem Reachable.inv {s : State} (h : Reachable s) : s.Inv := by
  induction h with
  | reset => exact resetMeetsTheInvariant
  | host c _ e ih => exact hostMovesKeepTheInvariant _ _ c ih e
  | core _ e ih => exact stepKeepsTheInvariant _ _ ih e

/-- Settles O45: the parts of the invariant, which holds of every reachable state. -/
theorem reachableStatesAreLegal : Obligations.ReachableStatesAreLegal := by
  intro s h
  have hs := h.inv
  obtain ⟨hcause, hinfo⟩ := hs.status
  refine ⟨hs.pcRange, fun j hj => hs.stack.cell_of_lt hj, fun j => ?_, hcause, hinfo, hs.memory⟩
  rcases hs.stack j with hret | ⟨-, hzero⟩
  · exact .inr hret
  · exact .inl hzero

end Sys2Proof.Machine

/-! PROOFS. Every run ends (family other). Each level of the stack has a place where it goes on: its return address, or `pc`
for the running one. An `ADD_XY` moves that place up; so does a `CALL`, which leaves its level to go on after the `CALL`; a
`RETURN` drops a level. So the distances the levels have left, the oldest level first, fall in the lexicographic order. -/

namespace Sys2Proof.Machine

/-! ## The distance each level of the stack has left -/

/-- The distance to the top of the 16-bit addresses from where a level of the stack goes on: from the return address of a
pending level, from `pc` for the running one. A level above it has none. -/
def State.distanceLeft (s : State) (k : Fin 17) : Nat :=
  if h : k.val < s.sp.val then 2 ^ 16 - (s.cell ⟨k.val, by omega⟩).toNat
  else if k = s.sp then 2 ^ 16 - s.pc.toNat
  else 0

section DistanceLeft
variable {s : State} {k : Fin 17}

theorem distanceLeft_of_pending (h : k.val < s.sp.val) (hk : k.val < 16) :
    s.distanceLeft k = 2 ^ 16 - (s.cell ⟨k.val, hk⟩).toNat := dif_pos h

theorem distanceLeft_of_running (h : k.val = s.sp.val) : s.distanceLeft k = 2 ^ 16 - s.pc.toNat :=
  (dif_neg (by omega)).trans (if_pos (Fin.ext h))

theorem distanceLeft_of_unused (h : s.sp.val < k.val) : s.distanceLeft k = 0 :=
  (dif_neg (by omega)).trans (if_neg (by rintro rfl; omega))

end DistanceLeft

/-- An instruction that keeps the core running leaves the levels below `sp` where they were, and does not move the level at
`sp` back. -/
theorem exec_distanceLeft {i : Instr} {s t : State} (e : exec i s = .next t) (hr : t.runState = .running) :
    (∀ k, k.val < s.sp.val → t.distanceLeft k = s.distanceLeft k) ∧ t.distanceLeft s.sp ≤ s.distanceLeft s.sp := by
  rcases exec_cases e with ⟨-, rfl⟩ | ⟨x, y, -, rfl⟩ | ⟨nnn, rfl, h, ht⟩ | ⟨nnn, -, -, rfl⟩ | ⟨-, j, hj, rfl⟩ |
    ⟨-, -, rfl⟩
  · cases hr
  · exact ⟨fun _ _ => rfl, le_rfl⟩
  · have hsp : t.sp.val = s.sp.val + 1 := by rw [ht]
    refine ⟨fun k hk => ?_, ?_⟩
    · rw [distanceLeft_of_pending (by omega) (by omega), distanceLeft_of_pending hk (by omega),
        exec_call_cell_of_lt e h, if_neg (Nat.ne_of_lt hk)]
    · rw [distanceLeft_of_pending (by omega) h, distanceLeft_of_running rfl, exec_call_cell_of_lt e h, if_pos rfl]
  · cases hr
  · refine ⟨fun k hk => ?_, ?_⟩
    · rw [distanceLeft_of_pending hk (by omega)]
      rcases Nat.lt_or_eq_of_le (show k.val ≤ j.val by omega) with hlt | heq
      · exact distanceLeft_of_pending hlt (by omega)
      · have hcell : (⟨k.val, by omega⟩ : Fin 16) = j := Fin.ext heq
        rw [hcell]
        exact distanceLeft_of_running heq
    · rw [distanceLeft_of_unused (by simp only []; omega)]
      exact Nat.zero_le _
  · cases hr

/-- The advance takes the running level closer to the top, and moves no other. -/
theorem advance_distanceLeft {s : State} {op : Word} (hf : s.fetch = some op) :
    (∀ k, k.val < s.sp.val → (s.movePc .advance).distanceLeft k = s.distanceLeft k) ∧
      (s.movePc .advance).distanceLeft s.sp < s.distanceLeft s.sp := by
  obtain ⟨-, hhigh, hadv⟩ := advanced_pc_bounds_of_fetch hf
  refine ⟨fun k hk => ?_, ?_⟩
  · exact (distanceLeft_of_pending (s := s.movePc .advance) hk (by omega)).trans
      (distanceLeft_of_pending hk (by omega)).symm
  · rw [distanceLeft_of_running (s := s.movePc .advance) (k := s.sp) rfl, distanceLeft_of_running rfl, movePc_pc,
      nextPc_advance, hadv]
    omega

/-- A step that keeps the core running makes the distances fall in the lexicographic order, at the level that ran. -/
theorem step_distanceLeft_lt {s t : State} (hr : s.runState = .running) (e : step s = .next t)
    (ht : t.runState = .running) : toLex t.distanceLeft < toLex s.distanceLeft := by
  rcases step_cases e with ⟨hn, -⟩ | ⟨-, -, rfl⟩ | ⟨-, -, op, hf, ⟨i, -, ei⟩ | ⟨-, rfl⟩⟩
  · exact absurd hr hn
  · cases ht
  · obtain ⟨hadvBelow, hadvAt⟩ := advance_distanceLeft hf
    obtain ⟨hbelow, hat⟩ := exec_distanceLeft ei ht
    exact ⟨s.sp, fun k hk => (hbelow k hk).trans (hadvBelow k hk), hat.trans_lt hadvAt⟩
  · cases ht

/-! ## The run -/

theorem run_succ_of_step {M : Host.Core} {s t : M.State} (e : M.step s = .next t) (n : Nat) :
    M.run (n + 1) s = M.run n t := by
  simp only [Host.Core.run, e]

/-- Settles O46: by induction on the distances, which every step that keeps the core running makes fall. -/
theorem everyRunEnds : Obligations.EveryRunEnds := by
  intro s
  induction hd : toLex s.distanceLeft using WellFoundedLT.induction generalizing s with
  | ind d ih =>
  subst hd
  intro hr
  obtain ⟨t, e⟩ := everyStepAnswersANextState s
  rcases step_running_or_stopped hr e with ht | hstopped
  · obtain ⟨n, u, erun, hu⟩ := ih _ (step_distanceLeft_lt hr e ht) t rfl ht
    exact ⟨n + 1, u, (run_succ_of_step (M := core) e n).trans erun, hu⟩
  · exact ⟨1, t, run_succ_of_step (M := core) e 0, hstopped⟩

end Sys2Proof.Machine
